-- ==== Sys2Proof/Word.lean ====
section
/-! DEFINITION. The value types of the block: bytes, the 48-bit instruction word and its fields
(00_scope.md R6, R8, R9). Every value is unsigned. -/

namespace Sys2Proof

/-- One 8-bit byte of the input stream, the output stream or the memory region. -/
abbrev Byte := BitVec 8

/-- `WORD_BITS` (00_scope.md R6): the instruction word, bit 47 the most significant (R8). -/
abbrev Word48 := BitVec 48

/-- `HDR_BITS` (00_scope.md R6): word bits 47:46. -/
abbrev Hdr := BitVec 2

/-- `ADDR_BITS` (00_scope.md R6): the base address, word bits 45:14. -/
abbrev Addr := BitVec 32

/-- `LEN_BITS` (00_scope.md R6): the length, word bits 13:0. -/
abbrev Len := BitVec 14

/-- `XFER_CNT_BITS` (00_scope.md R6): the engine's `expected`, `written` and `length` registers. -/
abbrev Count := BitVec 16

end Sys2Proof
end

