-- ==== Sys2Proof/Syntax.lean ====
section
/-! DEFINITION. The forms of the wire protocol as syntax: one constructor per row of spec/opcode_table.json
(00_scope.md R2, 30_encoding.md R63, R65, R66), and the contexts and refusals of the decoder (30_encoding.md R67). -/

namespace Sys2Proof

/-- The instructions and the two one-byte forms, in 30_encoding.md R69's notation. -/
inductive Instr where
  /-- READ, header `01`: start a Read transfer (41_transfer.md R85). -/
  | read (addr : Addr) (len : Len)
  /-- WRITE, header `10`: start a Write transfer (41_transfer.md R86). -/
  | write (addr : Addr) (len : Len)
  /-- STOP, header `11`: end communication. The 46 other bits are ignored (30_encoding.md R64, 41_transfer.md R89). -/
  | stop (ignored : BitVec 46)
  /-- RSVD00, header `00`: a no-op that no completed word is (41_transfer.md R90). -/
  | rsvd00 (ignored : BitVec 46)
  /-- FILL b, a byte below 0x40 at a word boundary: discarded (30_encoding.md R65). -/
  | fill (b : Byte)
  /-- DATA b, any byte during a Write transfer (30_encoding.md R66, 41_transfer.md R88). -/
  | data (b : Byte)
deriving DecidableEq, Repr

/-- Where the next byte of the stream stands (30_encoding.md R67). -/
inductive StreamContext where
  /-- At a word boundary, no Write transfer taking bytes: filler, or the first byte of a word. -/
  | boundary
  /-- A Write transfer is taking bytes: the next byte is payload. -/
  | payload
deriving DecidableEq, Repr

/-- Why the stream decoder gives no instruction. -/
inductive DecodeRefusal where
  /-- There is no byte. -/
  | noByte
  /-- A word has begun and its six bytes are not all there (40_decoder.md R78: it waits for the rest). -/
  | partialWord (taken : Nat)
deriving DecidableEq, Repr

end Sys2Proof
end

