-- ==== Sys2Proof/WellFormed.lean ====
section
/-! DEFINITION. Which terms of `Instr` stand for a form of the wire protocol (30_encoding.md R61, R65, R66, R69).
The widths of the fields are in their types; the one check left is that a filler byte is below 0x40. -/

namespace Sys2Proof

/-- 30_encoding.md R65, R69: `FILL b` has `b < 0x40`; every other form admits every value of its fields. -/
def Instr.wellFormed : Instr → Bool
  | .read _ _ => true
  | .write _ _ => true
  | .stop _ => true
  | .rsvd00 _ => true
  | .fill b => decide (b.toNat < 0x40)
  | .data _ => true

end Sys2Proof
end

