-- ==== Sys2Proof/Decode.lean ====
section
/-! DEFINITION. Decoding of the 48-bit word and of the byte stream (30_encoding.md R58 to R67, 40_decoder.md R76),
total on any bytes, and after it the encoder, from the same tables (R59, R61). -/

namespace Sys2Proof

/-! ### Fields -/

/-- The top two bits of a byte, `b[7:6]` (30_encoding.md R60). -/
def byteTag (b : Byte) : Hdr := b.extractLsb' 6 2

/-- `hdr = W[47:46]` (30_encoding.md R59). -/
def wordHdr (w : Word48) : Hdr := w.extractLsb' 46 2

/-- `addr = W[45:14]` (30_encoding.md R59). -/
def wordAddr (w : Word48) : Addr := w.extractLsb' 14 32

/-- `len = W[13:0]` (30_encoding.md R59). -/
def wordLen (w : Word48) : Len := w.extractLsb' 0 14

/-- The 46 bits a STOP or RSVD00 word ignores (30_encoding.md R63, R64). -/
def wordRest (w : Word48) : BitVec 46 := w.extractLsb' 0 46

/-- `B_k = W[47-8k : 40-8k]`, for `k` from 0 to 5 (30_encoding.md R58). -/
def wordByte (w : Word48) (k : Nat) : Byte := w.extractLsb' (40 - 8 * k) 8

/-- The six bytes of a word in arrival order, the most significant first (30_encoding.md R58). -/
def wordBytes (w : Word48) : List Byte :=
  [wordByte w 0, wordByte w 1, wordByte w 2, wordByte w 3, wordByte w 4, wordByte w 5]

/-- `(acc << 8) | byte` on 48 bits (30_encoding.md R58, 40_decoder.md R75). -/
def shiftIn (acc : Word48) (b : Byte) : Word48 := (acc <<< 8) ||| b.setWidth 48

/-- `W = B0 ++ B1 ++ B2 ++ B3 ++ B4 ++ B5` (30_encoding.md R58). -/
def joinBytes (b0 b1 b2 b3 b4 b5 : Byte) : Word48 := b0 ++ b1 ++ b2 ++ b3 ++ b4 ++ b5

/-! ### Decoding -/

/-- The instruction a completed word is: the header selects it (30_encoding.md R63, 41_transfer.md R82). Every
48-bit value is one, so a word is never rejected (30_encoding.md R61, R68). -/
def decodeWord (w : Word48) : Instr :=
  if wordHdr w = 0b01#2 then .read (wordAddr w) (wordLen w)
  else if wordHdr w = 0b10#2 then .write (wordAddr w) (wordLen w)
  else if wordHdr w = 0b11#2 then .stop (wordRest w)
  else .rsvd00 (wordRest w)

/-- The next form of the stream and the bytes after it (30_encoding.md R67), for whole words: the framer of
Machine/Framer.lean takes the same bytes one at a time. -/
def decode (c : StreamContext) (bytes : List Byte) : Except DecodeRefusal (Instr × List Byte) :=
  match c, bytes with
  | _, [] => .error .noByte
  | .payload, b :: rest => .ok (.data b, rest)
  | .boundary, b0 :: rest =>
    if byteTag b0 = 0b00#2 then .ok (.fill b0, rest)
    else match rest with
      | b1 :: b2 :: b3 :: b4 :: b5 :: rest' => .ok (decodeWord (joinBytes b0 b1 b2 b3 b4 b5), rest')
      | short => .error (.partialWord (short.length + 1))

/-! ### Encoding -/

/-- `enc(h, a, l) = (h << 46) | (a << 14) | l` (30_encoding.md R61), as a concatenation of the fields. -/
def encFields (h : Hdr) (a : Addr) (l : Len) : Word48 := h ++ a ++ l

/-- A word of header `h` whose other 46 bits are `x` (30_encoding.md R69, `STOP x`). -/
def encRest (h : Hdr) (x : BitVec 46) : Word48 := h ++ x

/-- The 48-bit word of a word form; the two one-byte forms have none. -/
def encodeWord : Instr → Option Word48
  | .read a l => some (encFields 0b01#2 a l)
  | .write a l => some (encFields 0b10#2 a l)
  | .stop x => some (encRest 0b11#2 x)
  | .rsvd00 x => some (encRest 0b00#2 x)
  | .fill _ => none
  | .data _ => none

/-- The bytes of a form, in the order they are sent (30_encoding.md R58, R69). -/
def encode : Instr → List Byte
  | .read a l => wordBytes (encFields 0b01#2 a l)
  | .write a l => wordBytes (encFields 0b10#2 a l)
  | .stop x => wordBytes (encRest 0b11#2 x)
  | .rsvd00 x => wordBytes (encRest 0b00#2 x)
  | .fill b => [b]
  | .data b => [b]

/-- The context in which the stream holds a form (30_encoding.md R67). -/
def Instr.context : Instr → StreamContext
  | .read _ _ => .boundary
  | .write _ _ => .boundary
  | .stop _ => .boundary
  | .rsvd00 _ => .boundary
  | .fill _ => .boundary
  | .data _ => .payload

/-- Whether the form is a STOP word, whose first byte gives the stop notice (40_decoder.md R74). -/
def Instr.isStop : Instr → Bool
  | .read _ _ => false
  | .write _ _ => false
  | .stop _ => true
  | .rsvd00 _ => false
  | .fill _ => false
  | .data _ => false

/-! ### The opcode table's numbering -/

/-- A byte read without its context: one below 0x40 as the filler it is at a word boundary, any other as payload
(log 8). -/
def decodeTableByte (b : Byte) : Instr := if byteTag b = 0b00#2 then .fill b else .data b

/-- The instruction of a row of spec/opcode_table.json whose bits are `w`. The table numbers a word's 48 bits 47
(the top of the first byte) down to 0, and a byte's 7 down to 0, so `w` is the word itself; a word is read as the
framer reads a completed one, `decodeWord` (log 8). -/
def decodeTableWord (nbits w : Nat) : Option Instr :=
  if nbits ≤ 8 then some (decodeTableByte (BitVec.ofNat 8 w))
  else if nbits ≤ 48 then some (decodeWord (BitVec.ofNat 48 w))
  else none

end Sys2Proof
end

