-- ==== Sys2Proof/Config.lean ====
section
/-! DEFINITION. The parameters of the model (00_scope.md R6) and the free values: the choices the spec leaves to
the environment, which no proof can see (00_scope.md R11, 42_sender.md R93). -/

namespace Sys2Proof.Config

/-- The block's two agents (10_state.md R12). `HOST`, the third, is the environment. -/
inductive Agent where
  /-- `IN`, the inbound path. -/
  | inbound
  /-- `SND`, the Sender loop. -/
  | sender
deriving DecidableEq, Repr, Inhabited

/-- The answer of port TX to one write (10_state.md R28). `fail k`: the write failed after the first `k` bytes
reached the host, all of them where the reply is shorter (42_sender.md R93, the draw of `k`). -/
inductive TxAnswer where
  | ok
  | fail (delivered : Nat)
deriving DecidableEq, Repr, Inhabited

/-- FREE VALUE (log 3): the agent that moves when both have an enabled step and State holds no choice already
made. The argument is State's counter `draws`. -/
opaque freeAgent : Nat → Agent

/-- FREE VALUE (log 4): the answer of TX to a write for which State holds no answer already given. The argument is
State's counter `draws`. -/
opaque freeTxAnswer : Nat → TxAnswer

/-- The unit suffix of the memory size at the configuration surface (00_scope.md R7). -/
inductive SizeUnit where
  | bytes
  | kib
  | mib
  | gib
deriving DecidableEq, Repr

/-- Bytes in one unit (00_scope.md R7; the factors are 93_implementation_defined.md G1). -/
def SizeUnit.factor : SizeUnit → Nat
  | .bytes => 1
  | .kib => 1024
  | .mib => 1024 ^ 2
  | .gib => 1024 ^ 3

/-- The conversion made outside the block, before launch (00_scope.md R7, 70_reset_and_hazards.md R119 step 1). -/
def sizeInBytes (n : Nat) (u : SizeUnit) : Nat := n * u.factor

/-- The parameters the spec marks OPEN (00_scope.md R6), arguments of a launch and constant after it. -/
structure Params where
  /-- `MEM_SIZE`, in bytes. -/
  memSize : Nat
  /-- `MEM_INIT`: the cells of the initial contents that are not 0, offsets rising (log 2). -/
  memInit : List Host.Cell
  /-- `ALLOC_OK`: whether the allocation of `memSize` bytes succeeds. -/
  allocOk : Bool
  /-- `VERBOSE`: no effect on any step (60_exceptions.md R117). -/
  verbose : Bool
  /-- `EXIT_STOP` (60_exceptions.md R109). -/
  exitStop : Nat
  /-- `EXIT_FATAL`, not 0 (60_exceptions.md R109). -/
  exitFatal : Nat
deriving DecidableEq, Repr

/-- The parameters of `State.reset`: 95_test_vectors.md's default start (DESIGN CHOICE, unsafe where a claim rests
on them: log 1). A claim about a launch quantifies over `Params` instead. -/
def defaultParams : Params where
  memSize := 65536
  memInit := []
  allocOk := true
  verbose := false
  exitStop := 0
  exitFatal := 1

end Sys2Proof.Config
end

