-- ==== Sys2Proof/Machine/State.lean ====
section
/-! DEFINITION. The state of the machine as plain data: the record of 10_state.md R14, the parameters of 00_scope.md
R6 and the environment's side of the ports (10_state.md R27, R28); the outcomes' reasons; launch and reset
(10_state.md R33, 70_reset_and_hazards.md R119). -/

namespace Sys2Proof.Machine

/-- Memory contents: the bytes that are not 0, offsets strictly rising; an offset not listed reads 0. This only
REPRESENTS the contents: every contents of a finite region is such a list (log 2). -/
abbrev Memory := List Host.Cell

/-- TransferState (10_state.md R20). -/
inductive TransferState where
  | idle
  | writing (base : Addr) (expected written : Count)
  | reading (base : Addr) (length : Count) (drained : Bool)
deriving DecidableEq, Repr

/-- The variant of a TransferState, the status output `xsKind` (10_state.md R30). -/
inductive XsKind where
  | idle
  | writing
  | reading
deriving DecidableEq, Repr

/-- The four conditions of 60_exceptions.md R101. -/
inductive Cause where
  | allocationFailure
  | outOfRange
  | protocolViolation
  | transportFailure
deriving DecidableEq, Repr

/-- `S.halt` (10_state.md R14, R24). -/
inductive Halt where
  /-- Communication is active. -/
  | none
  /-- Ended by a Stop instruction. -/
  | stopped
  /-- Ended by a fatal condition. -/
  | fatal (cause : Cause)
deriving DecidableEq, Repr

/-- The kind of a memory access in a report (60_exceptions.md R101). -/
inductive AccessOp where
  | read
  | write
deriving DecidableEq, Repr

/-- The direction of a TransportFailure (60_exceptions.md R101). -/
inductive TransportInfo where
  | rxFail
  | rxEos
  | txFail
deriving DecidableEq, Repr

/-- The recorded info of a fatal condition (60_exceptions.md R101). -/
inductive FatalInfo where
  /-- AllocationFailure: `MEM_SIZE`. -/
  | allocation (memSize : Nat)
  /-- ProtocolViolation: header, address and length of the word, and the transfer state it met. -/
  | protocol (hdr : Hdr) (addr : Addr) (len : Len) (xs : TransferState)
  /-- TransportFailure: the direction. -/
  | transport (direction : TransportInfo)
deriving DecidableEq, Repr

/-- A diagnostic record (60_exceptions.md R102). -/
inductive Diag where
  | outOfRange (op : AccessOp) (off n : Nat)
  | fatalReport (cause : Cause) (info : FatalInfo)
deriving DecidableEq, Repr

/-- An item of the input stream at port RX (10_state.md R27). -/
inductive RxItem where
  | byte (b : Byte)
  /-- End of stream. -/
  | eos
  /-- I/O failure. -/
  | fail
deriving DecidableEq, Repr

/-- Why a step stops with a fault. -/
inductive Fault where
  /-- Raised by `memRead`, `memWrite` and `getByte` when the region has been released: 20_memory.md R42 says that
  such an access faults with this reason and gives no value. Safe: no value is made up, and no run from a launch
  reaches it. -/
  | useAfterRelease (op : AccessOp)
deriving DecidableEq, Repr

/-- Why an instruction is refused. -/
inductive Refusal where
  /-- Raised by an arm of `exec` without a meaning; there is none. Safe. -/
  | notModelled (mnemonic : String)
  /-- Raised by `execData` outside a Write transfer: 30_encoding.md R66 knows a payload byte only while
  `S.xs = Writing`, and gives it no effect elsewhere. Safe: `step` never asks for it (log 7). -/
  | dataOutsideWriting
deriving DecidableEq, Repr

/-- The machine's state. -/
structure State where
  /-- `S.acc`, the accumulator (10_state.md R17). -/
  acc : Word48
  /-- `S.cnt`, the bytes accumulated, 0 to 5 between steps (10_state.md R17). -/
  cnt : Nat
  /-- `S.stopPending`, the stop notice (10_state.md R19). -/
  stopPending : Bool
  /-- `S.xs`, the transfer state (10_state.md R20). -/
  xs : TransferState
  /-- `S.halt` (10_state.md R24). -/
  halt : Halt
  /-- `S.memLive`, region allocated and not released (10_state.md R26). -/
  memLive : Bool
  /-- `S.mem`, the region's contents (10_state.md R14). -/
  mem : Memory
  /-- `S.diag`, the diagnostic output, oldest first (10_state.md R31). -/
  diag : List Diag
  /-- `S.tx`, the bytes written to the transport, oldest first (10_state.md R28). -/
  tx : List Byte
  /-- The input stream of port RX, oldest first: the environment's (10_state.md R27; log 5). -/
  rx : List RxItem
  /-- Answers of port TX already given, oldest first: the environment's (10_state.md R28; log 4). -/
  txAnswers : List Config.TxAnswer
  /-- Choices of the next mover already made, oldest first: the environment's (00_scope.md R11; log 3). -/
  sched : List Config.Agent
  /-- The model's own counter, the argument of the free values of Config (log 3, log 4). -/
  draws : Nat
  /-- The parameters, constant after the launch (00_scope.md R6, 10_state.md R32). -/
  cfg : Config.Params
deriving DecidableEq, Repr

/-- The state a launch leaves (10_state.md R33 both columns, 20_memory.md R40, 60_exceptions.md R105; log 12): with
the region, or in the fatal state of AllocationFailure. -/
def State.launch (p : Config.Params) : State where
  acc := 0#48
  cnt := 0
  stopPending := false
  xs := .idle
  halt := if p.allocOk then .none else .fatal .allocationFailure
  memLive := p.allocOk
  mem := if p.allocOk then p.memInit else []
  diag := if p.allocOk then [] else [.fatalReport .allocationFailure (.allocation p.memSize)]
  tx := []
  rx := []
  txAnswers := []
  sched := []
  draws := 0
  cfg := p

/-- The machine right after reset: the launch of the default parameters (log 1). -/
def State.reset : State := State.launch Config.defaultParams

end Sys2Proof.Machine
end

