-- ==== Sys2Proof/Machine/Flags.lean ====
section
/-! DEFINITION. The block has no condition flags (41_transfer.md R91); its status outputs (10_state.md R30), the
cause codes (60_exceptions.md R101) and the end statuses (60_exceptions.md R109). -/

namespace Sys2Proof.Machine

/-- The variant of a transfer state. -/
def TransferState.kind : TransferState → XsKind
  | .idle => .idle
  | .writing _ _ _ => .writing
  | .reading _ _ _ => .reading

/-- Status output `xsKind` (10_state.md R30). -/
def xsKind (s : State) : XsKind := s.xs.kind

/-- Status output `comm`: communication is active exactly when `S.halt = None` (10_state.md R24, R30). -/
def commActive (s : State) : Bool := decide (s.halt = .none)

/-- The numeric codes of 60_exceptions.md R101. -/
def Cause.code : Cause → Nat
  | .allocationFailure => 1
  | .outOfRange => 2
  | .protocolViolation => 3
  | .transportFailure => 4

/-- Which conditions are fatal (60_exceptions.md R101). -/
def Cause.isFatal : Cause → Bool
  | .allocationFailure => true
  | .outOfRange => false
  | .protocolViolation => true
  | .transportFailure => true

/-- The cause of the end, where it was fatal. -/
def Halt.fatalCause : Halt → Option Cause
  | .none => .none
  | .stopped => .none
  | .fatal k => some k

/-- The cause a record reports as fatal. -/
def Diag.fatalCause : Diag → Option Cause
  | .outOfRange _ _ _ => none
  | .fatalReport k _ => some k

/-- The status with which the surrounding process ends: parameters (60_exceptions.md R109). -/
def exitStatus (s : State) : Option Nat :=
  match s.halt with
  | .none => none
  | .stopped => some s.cfg.exitStop
  | .fatal _ => some s.cfg.exitFatal

end Sys2Proof.Machine
end

