-- ==== Sys2Proof/Machine/Operands.lean ====
section
/-! DEFINITION. Operand assembly (30_encoding.md R62, 41_transfer.md R91): the fields of a word as offsets and
transfer registers. Offsets are naturals and never wrap (00_scope.md R9; log 10). -/

namespace Sys2Proof.Machine

/-- `addr` as a byte offset, by zero extension to ℕ (30_encoding.md R62). -/
def baseOffset (base : Addr) : Nat := base.toNat

/-- `zext_16(len)`, the length in a 16-bit transfer register (30_encoding.md R62). -/
def lenCount (l : Len) : Count := l.setWidth 16

/-- `zext(base) + written`, the offset of the next payload byte (41_transfer.md R88, R91). -/
def payloadOffset (base : Addr) (written : Count) : Nat := baseOffset base + written.toNat

/-- `written + 1` in 16 bits (41_transfer.md R88, R91). -/
def nextWritten (written : Count) : Count := written + 1#16

/-- The transfer state after a payload byte: `Idle` when it was the last (41_transfer.md R88). -/
def afterPayload (base : Addr) (expected written : Count) : TransferState :=
  if nextWritten written = expected then .idle else .writing base expected (nextWritten written)

end Sys2Proof.Machine
end

