-- ==== Sys2Proof/Machine/Ops.lean ====
section
/-! DEFINITION. The shared operations: the memory contents, the memory port (20_memory.md R43 to R47), reports
(60_exceptions.md R103), the fatal shutdown (R104), the output port (10_state.md R28) and the host's side of RX. -/

namespace Sys2Proof.Machine

/-! ### Memory contents -/

/-- The byte at offset `a`. -/
def Memory.read : Memory → Nat → Byte
  | [], _ => 0#8
  | (k, v) :: m, a => if k = a then v else Memory.read m a

/-- Put the byte `b` at offset `a`, keeping the canonical form: writing 0 removes the entry. -/
def Memory.write : Memory → Nat → Byte → Memory
  | [], a, b => if b = 0#8 then [] else [(a, b)]
  | (k, v) :: m, a, b =>
    if a < k then (if b = 0#8 then (k, v) :: m else (a, b) :: (k, v) :: m)
    else if a = k then (if b = 0#8 then m else (a, b) :: m)
    else (k, v) :: Memory.write m a b

/-- Every offset listed lies at or above `lo`. -/
def Memory.wfFrom : Nat → Memory → Bool
  | _, [] => true
  | lo, (k, v) :: m => decide (lo ≤ k) && decide (v ≠ 0#8) && Memory.wfFrom (k + 1) m

/-- The canonical form: offsets strictly rising, no entry 0. -/
def Memory.wf (m : Memory) : Bool := Memory.wfFrom 0 m

/-- Every offset listed lies in `[0, size)` (20_memory.md R35). -/
def Memory.inside (size : Nat) (m : Memory) : Bool := m.all (fun c => decide (c.1 < size))

/-- The byte at offset `a` of the region: the model's read of one byte, without a report. -/
def byteAt (s : State) (a : Nat) : Byte := Memory.read s.mem a

/-- The `n` bytes from offset `off`, ascending (20_memory.md R45, R48). -/
def spanBytes (m : Memory) (off n : Nat) : List Byte := (List.range n).map (fun i => Memory.read m (off + i))

/-! ### Reports and the fatal shutdown -/

/-- `report OutOfRange(op, off, n)` (60_exceptions.md R103). -/
def reportOutOfRange (op : AccessOp) (off n : Nat) (s : State) : State :=
  { s with diag := s.diag ++ [.outOfRange op off n] }

/-- `raise Fatal(k, info)`: the fatal shutdown, in the step that detects the condition (60_exceptions.md R104). It
is the block's only exception entry: nothing else is saved, no handler runs (R112), and there is no return (R113).
The contents stay for observation (log 16); the record's form is log 21. -/
def raiseFatal (k : Cause) (info : FatalInfo) (s : State) : State :=
  { s with diag := s.diag ++ [.fatalReport k info], halt := .fatal k, memLive := false }

/-- The ProtocolViolation of a READ or WRITE word that completes while a transfer is active (41_transfer.md R84;
log 18). -/
def protocolViolation (h : Hdr) (a : Addr) (l : Len) (s : State) : State :=
  raiseFatal .protocolViolation (.protocol h a l s.xs) s

/-- The TransportFailure of direction `d` (60_exceptions.md R106, R107, R108). -/
def transportFailure (d : TransportInfo) (s : State) : State :=
  raiseFatal .transportFailure (.transport d) s

/-! ### The memory port -/

/-- `InRange(off, n)` (20_memory.md R43). -/
def inRange (s : State) (off n : Nat) : Bool := decide (off + n ≤ s.cfg.memSize)

/-- `size()` (20_memory.md R47). -/
def memSize (s : State) : Nat := s.cfg.memSize

/-- `MemWrite(off, 1, b)` (20_memory.md R44); a released region faults (R42). -/
def memWrite (off : Nat) (b : Byte) (s : State) : Except Fault State :=
  if s.memLive then
    .ok (if inRange s off 1 then { s with mem := Memory.write s.mem off b } else reportOutOfRange .write off 1 s)
  else .error (.useAfterRelease .write)

/-- `MemRead(off, n)`, all or nothing (20_memory.md R45; log 19); a released region faults (R42). -/
def memRead (off n : Nat) (s : State) : Except Fault (List Byte × State) :=
  if s.memLive then
    .ok (if inRange s off n then (spanBytes s.mem off n, s) else ([], reportOutOfRange .read off n s))
  else .error (.useAfterRelease .read)

/-- `getByte(off)`, 0 with a report when out of range (20_memory.md R46); a released region faults (R42). No step of
the block calls it. -/
def getByte (off : Nat) (s : State) : Except Fault (Byte × State) :=
  if s.memLive then
    .ok (if inRange s off 1 then (byteAt s off, s) else (0#8, reportOutOfRange .read off 1 s))
  else .error (.useAfterRelease .read)

/-! ### The output port -/

/-- The answer of TX to the write at hand: the oldest already given, else a free value (10_state.md R28; log 4). -/
def txAnswer (s : State) : Config.TxAnswer :=
  match s.txAnswers with
  | r :: _ => r
  | [] => Config.freeTxAnswer s.draws

/-- Append bytes to the outbound stream (10_state.md R28). -/
def txAppend (seq : List Byte) (s : State) : State := { s with tx := s.tx ++ seq }

/-- The answer at hand has been used. -/
def dropTxAnswer (s : State) : State := { s with txAnswers := s.txAnswers.tail }

/-! ### The host's side -/

/-- The host appends an item to the input stream (10_state.md R27): no step of the block. -/
def hostOffer (item : RxItem) (s : State) : State := { s with rx := s.rx ++ [item] }

/-- The host answers a write to come (10_state.md R28): an environment choice, no step of the block. -/
def hostAnswer (r : Config.TxAnswer) (s : State) : State := { s with txAnswers := s.txAnswers ++ [r] }

/-- The order of the agents' steps is chosen further ahead (00_scope.md R11): an environment choice, no step of the
block. -/
def hostSchedule (a : Config.Agent) (s : State) : State := { s with sched := s.sched ++ [a] }

/-- The parameters a launch may have (00_scope.md R6; 20_memory.md R35). -/
def paramsOk (p : Config.Params) : Bool :=
  decide (p.memSize ≤ 2 ^ 63 - 1) && Memory.wf p.memInit && Memory.inside p.memSize p.memInit && decide (p.exitFatal ≠ 0)

end Sys2Proof.Machine
end

