-- ==== Sys2Proof/Machine/Fetch.lean ====
section
/-! DEFINITION. How a given form is put where the next step takes its instruction: the machine has no program counter
(10_state.md R16), its instructions arrive on RX, so the form's last byte goes to the head of RX and the decoder is set
to the position that makes the next byte complete it (log 8). -/

namespace Sys2Proof.Machine

/-- The next step is one of `IN`, in a launched machine, on the byte `b`. -/
def readyByte (b : Byte) (s : State) : State :=
  { s with halt := .none, memLive := true, rx := .byte b :: s.rx, sched := .inbound :: s.sched }

/-- The engine takes no payload. -/
def notWriting : TransferState → TransferState
  | .writing _ _ _ => .idle
  | .idle => .idle
  | .reading base length drained => .reading base length drained

/-- The engine takes payload: the transfer at hand, or one of a single byte to offset 0. -/
def someWriting : TransferState → TransferState
  | .writing base expected written => .writing base expected written
  | .idle => .writing 0#32 1#16 0#16
  | .reading _ _ _ => .writing 0#32 1#16 0#16

/-- The first five bytes of the word `w` have been taken and its sixth is next. -/
def placeWord (w : Word48) (s : State) : State :=
  readyByte (wordByte w 5)
    { s with acc := w >>> 8, cnt := 5, stopPending := s.stopPending || decide (wordHdr w = 0b11#2), xs := notWriting s.xs }

/-- The byte `b` is next: at a word boundary when it is a filler value, else as payload (`decodeTableByte`). -/
def placeByte (b : Byte) (s : State) : State :=
  readyByte b
    { s with acc := 0#48, cnt := 0, xs := if byteTag b = 0b00#2 then notWriting s.xs else someWriting s.xs }

/-- The form of spec/opcode_table.json whose bits are `w` is what the next step runs. -/
def placeForm (nbits w : Nat) (s : State) : State :=
  if nbits ≤ 8 then placeByte (BitVec.ofNat 8 w) s else placeWord (BitVec.ofNat 48 w) s

end Sys2Proof.Machine
end

