-- ==== Sys2Proof/Machine/Control.lean ====
section
/-! DEFINITION. The forms that move no data: STOP, the reserved header and filler (41_transfer.md R89, R90;
40_decoder.md R73). -/

namespace Sys2Proof.Machine

/-- STOP (41_transfer.md R89): clear the communication flag and release the memory region. The 46 operand bits are
ignored (30_encoding.md R64). -/
def execStop (_ignored : BitVec 46) (s : State) : Host.Outcome State Fault Refusal :=
  .next { s with halt := .stopped, memLive := false }

/-- RSVD00 (41_transfer.md R90): a no-op (90_conflicts.md C4; log 9). -/
def execRsvd00 (_ignored : BitVec 46) (s : State) : Host.Outcome State Fault Refusal :=
  .next s

/-- FILL (40_decoder.md R73): the byte is discarded and writes no state. -/
def execFill (_b : Byte) (s : State) : Host.Outcome State Fault Refusal :=
  .next s

end Sys2Proof.Machine
end

