-- ==== Sys2Proof/Machine/Transfer.lean ====
section
/-! DEFINITION. The instructions of the transfer engine: READ, WRITE and payload bytes (41_transfer.md R84 to R88).
A word's meaning starts from the state whose accumulator has been reset (40_decoder.md R76). -/

namespace Sys2Proof.Machine

/-- READ (41_transfer.md R85): arm the sender, or ProtocolViolation while a transfer is active (R84). The bounds
check is the sender's, for `l = 0` too (log 13). -/
def execRead (a : Addr) (l : Len) (s : State) : Host.Outcome State Fault Refusal :=
  if s.xs = .idle then .next { s with xs := .reading a (lenCount l) false }
  else .next (protocolViolation 0b01#2 a l s)

/-- WRITE (41_transfer.md R86): route the next `l` bytes to memory, or ProtocolViolation while a transfer is active
(R84). With `l = 0` it takes no payload and stays Idle (R87; log 11). -/
def execWrite (a : Addr) (l : Len) (s : State) : Host.Outcome State Fault Refusal :=
  if s.xs = .idle then
    if l = 0#14 then .next s else .next { s with xs := .writing a (lenCount l) 0#16 }
  else .next (protocolViolation 0b10#2 a l s)

/-- DATA (41_transfer.md R88): one payload byte to `base + written`; the last one returns the engine to Idle. -/
def execData (b : Byte) (s : State) : Host.Outcome State Fault Refusal :=
  match s.xs with
  | .writing base expected written =>
    match memWrite (payloadOffset base written) b s with
    | .ok s' => .next { s' with xs := afterPayload base expected written }
    | .error e => .fault e
  | .idle => .refused .dataOutsideWriting
  | .reading _ _ _ => .refused .dataOutsideWriting

end Sys2Proof.Machine
end

