-- ==== Sys2Proof/Machine/Dispatch.lean ====
section
/-! DEFINITION. One arm per form of the wire protocol: `Execute` of 41_transfer.md R82 on a completed word, and the two
one-byte forms (40_decoder.md R71, R73). -/

namespace Sys2Proof.Machine

def exec (i : Instr) (s : State) : Host.Outcome State Fault Refusal :=
  match i with
  | .read a l => Sys2Proof.Machine.execRead a l s
  | .write a l => Sys2Proof.Machine.execWrite a l s
  | .stop x => Sys2Proof.Machine.execStop x s
  | .rsvd00 x => Sys2Proof.Machine.execRsvd00 x s
  | .fill b => Sys2Proof.Machine.execFill b s
  | .data b => Sys2Proof.Machine.execData b s

end Sys2Proof.Machine
end

