-- ==== Sys2Proof/Machine/Framer.lean ====
section
/-! DEFINITION. The inbound agent `IN` (40_decoder.md R71 to R76): one item of the input stream a step, the framer
that collects six bytes into a word, and the dispatch of what they decode to. -/

namespace Sys2Proof.Machine

/-- Step 2 of the decoder: a first byte with top bits `11` gives the stop notice (40_decoder.md R74; log 17). -/
def stopNotice (b : Byte) (s : State) : Bool :=
  s.stopPending || (decide (s.cnt = 0) && decide (byteTag b = 0b11#2))

/-- Steps 2 and 3 of the decoder: the stop notice, then the byte into the accumulator (40_decoder.md R74, R75). -/
def accumulate (b : Byte) (s : State) : State :=
  { s with stopPending := stopNotice b s, acc := shiftIn s.acc b, cnt := s.cnt + 1 }

/-- The accumulator is reset before the word's meaning runs (40_decoder.md R76). -/
def clearAcc (s : State) : State := { s with acc := 0#48, cnt := 0 }

/-- Step 4 of the decoder: six bytes make a word, which runs in the same step (40_decoder.md R76, 41_transfer.md
R82). -/
def completeWord (s : State) : Host.Outcome State Fault Refusal :=
  if s.cnt = 6 then exec (decodeWord s.acc) (clearAcc s) else .next s

/-- `DecodeByte(b)` (40_decoder.md R72): step 1 takes filler at a word boundary (R73). -/
def decodeByte (b : Byte) (s : State) : Host.Outcome State Fault Refusal :=
  if s.cnt = 0 ∧ byteTag b = 0b00#2 then exec (.fill b) s
  else completeWord (accumulate b s)

/-- What a byte of the stream does: payload while a Write transfer is active, else the decoder (40_decoder.md R71,
41_transfer.md R83). -/
def takeByte (b : Byte) (s : State) : Host.Outcome State Fault Refusal :=
  match s.xs with
  | .writing _ _ _ => exec (.data b) s
  | .idle => decodeByte b s
  | .reading _ _ _ => decodeByte b s

/-- What an item of the stream does (40_decoder.md R71; 60_exceptions.md R106, R107; log 20). -/
def takeItem (item : RxItem) (s : State) : Host.Outcome State Fault Refusal :=
  match item with
  | .byte b => takeByte b s
  | .eos => .next (transportFailure .rxEos s)
  | .fail => .next (transportFailure .rxFail s)

/-- STEP in_item (40_decoder.md R71): the oldest item of RX. With none there is no step; `step` does not call it. -/
def inItem (s : State) : Host.Outcome State Fault Refusal :=
  match s.rx with
  | item :: rest => takeItem item { s with rx := rest }
  | [] => .next s

end Sys2Proof.Machine
end

