-- ==== Sys2Proof/Machine/Schedule.lean ====
section
/-! DEFINITION. Which agents have an enabled step and which of them moves (00_scope.md R11; 10_state.md R25, R27;
42_sender.md R93 to R96). -/

namespace Sys2Proof.Machine

/-- The guard of `in_item` (40_decoder.md R71). -/
def inEnabled (s : State) : Bool := decide (s.halt = .none) && !s.rx.isEmpty

/-- The guards of `snd_emit` and `snd_clear` together (42_sender.md R93, R94). -/
def sndEnabled (s : State) : Bool := decide (s.halt = .none) && decide (s.xs.kind = .reading)

/-- The mover when both agents may move: the oldest choice already made, else a free value (log 3). -/
def turn (s : State) : Config.Agent :=
  match s.sched with
  | a :: _ => a
  | [] => Config.freeAgent s.draws

/-- The agent whose step is taken, if any is enabled (00_scope.md R11; 60_exceptions.md R118). -/
def nextAgent (s : State) : Option Config.Agent :=
  match inEnabled s, sndEnabled s with
  | true, true => some (turn s)
  | true, false => some .inbound
  | false, true => some .sender
  | false, false => none

/-- The choice at hand has been used. -/
def advance (s : State) : State := { s with sched := s.sched.tail, draws := s.draws + 1 }

end Sys2Proof.Machine
end

