-- ==== Sys2Proof/Machine/Sender.lean ====
section
/-! DEFINITION. The sender agent `SND` (42_sender.md R93, R94): emit the reply of a Read transfer, then clear it. -/

namespace Sys2Proof.Machine

/-- The write of a non-empty reply to TX and its two answers (42_sender.md R93; 60_exceptions.md R108;
log 4, log 14). -/
def emitReply (base : Addr) (length : Count) (seq : List Byte) (s : State) : State :=
  match txAnswer s with
  | .ok => { txAppend seq (dropTxAnswer s) with xs := .reading base length true }
  | .fail k => transportFailure .txFail (txAppend (seq.take k) (dropTxAnswer s))

/-- STEP snd_emit (42_sender.md R93). An empty reply makes no write, so nothing is drawn for it. -/
def sndEmit (base : Addr) (length : Count) (s : State) : Host.Outcome State Fault Refusal :=
  match memRead (baseOffset base) length.toNat s with
  | .ok ([], s') => .next { s' with xs := .reading base length true }
  | .ok (b :: seq, s') => .next (emitReply base length (b :: seq) s')
  | .error e => .fault e

/-- STEP snd_clear (42_sender.md R94; log 13). -/
def sndClear (s : State) : Host.Outcome State Fault Refusal := .next { s with xs := .idle }

/-- The sender's step. Outside a Read transfer there is none (42_sender.md R95); `step` does not call it there. -/
def sndStep (s : State) : Host.Outcome State Fault Refusal :=
  match s.xs with
  | .reading base length false => sndEmit base length s
  | .reading _ _ true => sndClear s
  | .idle => .next s
  | .writing _ _ _ => .next s

end Sys2Proof.Machine
end

