-- ==== Sys2Proof/Machine/Step.lean ====
section
/-! DEFINITION. One step of the machine: one enabled step of one agent (00_scope.md R11; log 22). -/

namespace Sys2Proof.Machine

/-- The agent that moves takes its step; with no step enabled the block waits, and waiting changes no state
(60_exceptions.md R118; 10_state.md R25; log 6). -/
def step (s : State) : Host.Outcome State Fault Refusal :=
  match nextAgent s with
  | some .inbound => inItem (advance s)
  | some .sender => sndStep (advance s)
  | none => .next s

/-- `s` with the form `w` of the opcode table placed so that the next step runs it (log 8). -/
def State.withFetchWord (s : State) (nbits w : Nat) : State := placeForm nbits w s

end Sys2Proof.Machine
end

