-- ==== Sys2Proof/Safety.lean ====
section
/-! DEFINITION. What claims mean by a good state and a good run: the invariant of the block (10_state.md R17, R21, R26,
40_decoder.md R78, R80), the states a launch and its environment reach, and runs with their fairness (40_decoder.md R81,
42_sender.md R100). -/

namespace Sys2Proof.Machine

/-- The state in which the oldest item has been taken off RX, `rest` being what is left of it: beside the stream only
the model's own scheduling fields have moved (log 3). -/
def taken (rest : List RxItem) (s : State) : State :=
  { s with rx := rest, sched := s.sched.tail, draws := s.draws + 1 }

/-- The next step is one of `IN`, on the byte `b` (10_state.md R27). -/
def ByteIsNext (b : Byte) (rest : List RxItem) (s : State) : Prop :=
  nextAgent s = some .inbound ∧ s.rx = .byte b :: rest

/-- The input stream begins with `bytes`, and the next steps are all of `IN`, one for each of them. -/
def BytesAreNext (bytes : List Byte) (rest : List RxItem) (sched : List Config.Agent) (s : State) : Prop :=
  s.rx = bytes.map .byte ++ rest ∧ s.sched = List.replicate bytes.length .inbound ++ sched

/-- The context in which the next byte of the stream stands at a word boundary (30_encoding.md R67). -/
def streamContext (s : State) : StreamContext :=
  if s.xs.kind = .writing then .payload else .boundary

/-- `n` steps, stopping at the first fault or refusal: the host's `Core.run` of this machine (Laws/Run.lean). -/
def steps : Nat → State → Host.Outcome State Fault Refusal
  | 0, s => .next s
  | n + 1, s =>
    match step s with
    | .next t => steps n t
    | .fault e => .fault e
    | .refused r => .refused r

/-- An outcome with its next state changed by `f`; a fault or a refusal stays. -/
def mapNext (f : State → State) : Host.Outcome State Fault Refusal → Host.Outcome State Fault Refusal
  | .next s => .next (f s)
  | .fault e => .fault e
  | .refused r => .refused r

/-- The invariants of `S.xs` between steps (10_state.md R21). -/
def transferOk : TransferState → Prop
  | .idle => True
  | .writing _ expected written => 1 ≤ expected.toNat ∧ expected.toNat ≤ 16383 ∧ written.toNat < expected.toNat
  | .reading _ length _ => length.toNat ≤ 16383

/-- The invariant that every launch establishes and every step keeps. -/
structure BlockInv (s : State) : Prop where
  /-- 10_state.md R17: six accepted bytes exist only inside a step. -/
  cnt_le : s.cnt ≤ 5
  /-- 10_state.md R17: the accumulator holds the `cnt` bytes accepted so far. -/
  acc_lt : s.acc.toNat < 2 ^ (8 * s.cnt)
  /-- 40_decoder.md R78: a word in progress began with a byte whose top bits are not `00`. -/
  acc_first : 0 < s.cnt → 2 ^ (8 * s.cnt - 2) ≤ s.acc.toNat
  /-- 10_state.md R19: while communication is active, the stop notice stands exactly while a Stop word is in
  progress. -/
  stop_iff : s.halt = .none → (s.stopPending = true ↔ 0 < s.cnt ∧ 3 * 2 ^ (8 * s.cnt - 2) ≤ s.acc.toNat)
  /-- 41_transfer.md R89: a Stop that took effect had given its notice. -/
  stop_noticed : s.halt = .stopped → s.stopPending = true
  /-- 10_state.md R21. -/
  xs_ok : transferOk s.xs
  /-- 40_decoder.md R80: the decoder is at a boundary throughout a Write transfer. -/
  writing_boundary : s.xs.kind = .writing → s.cnt = 0 ∧ s.acc = 0#48
  /-- 10_state.md R26: the region is live exactly while communication is active. -/
  live_iff : s.memLive = true ↔ s.halt = .none
  /-- The canonical form of the memory (log 2). -/
  mem_wf : Memory.wf s.mem = true
  /-- 20_memory.md R43: nothing is ever written outside the region. -/
  mem_inside : Memory.inside s.cfg.memSize s.mem = true
  /-- 60_exceptions.md R104, R113: the fatal reports are exactly the one condition that ended communication. -/
  diag_ok : s.diag.filterMap Diag.fatalCause = s.halt.fatalCause.toList
  /-- 60_exceptions.md R101: OutOfRange is never fatal. -/
  halt_fatal : ∀ k, s.halt = .fatal k → k.isFatal = true
  /-- 00_scope.md R6: the parameters are in their ranges. -/
  params_ok : paramsOk s.cfg = true

/-- The states that a launch reaches by the block's steps and by anything the environment may do between them
(10_state.md R12, R27, R28). -/
inductive Reachable : State → Prop where
  | launch (p : Config.Params) (h : paramsOk p = true) : Reachable (State.launch p)
  | step (s t : State) (h : Reachable s) (hs : step s = .next t) : Reachable t
  | offer (s : State) (item : RxItem) (h : Reachable s) : Reachable (hostOffer item s)
  | answer (s : State) (r : Config.TxAnswer) (h : Reachable s) : Reachable (hostAnswer r s)
  | schedule (s : State) (a : Config.Agent) (h : Reachable s) : Reachable (hostSchedule a s)

/-- A step that neither faults nor refuses. -/
def StepsOn (s : State) : Prop := ∃ t, step s = .next t

/-- What may happen next in a run: a step of the block, or anything the environment may do between two of them
(10_state.md R12, R27, R28; 00_scope.md R11). -/
inductive Move where
  | block
  | offer (item : RxItem)
  | answer (r : Config.TxAnswer)
  | schedule (a : Config.Agent)
deriving DecidableEq, Repr

/-- The outcome of a move. -/
def makeMove (m : Move) (s : State) : Host.Outcome State Fault Refusal :=
  match m with
  | .block => step s
  | .offer item => .next (hostOffer item s)
  | .answer r => .next (hostAnswer r s)
  | .schedule a => .next (hostSchedule a s)

/-- An infinite run without faults and refusals: `moves n` leads from `r n` to `r (n + 1)`. The host may move at any point
and for ever, so the stream need not be finite. A waiting step repeats the state (60_exceptions.md R118; log 6). -/
def IsRun (r : Nat → State) (moves : Nat → Move) : Prop := ∀ n, makeMove (moves n) (r n) = .next (r (n + 1))

/-- The move at `n` is a step of the agent `a`. -/
def StepTaken (a : Config.Agent) (r : Nat → State) (moves : Nat → Move) (n : Nat) : Prop :=
  moves n = .block ∧ nextAgent (r n) = some a

/-- Weak fairness of `IN`: a step of `IN` that stays enabled is eventually taken (40_decoder.md R81; log 15). -/
def FairIn (r : Nat → State) (moves : Nat → Move) : Prop :=
  ∀ n, (∀ m, n ≤ m → inEnabled (r m) = true) → ∃ m, n ≤ m ∧ StepTaken .inbound r moves m

/-- Weak fairness of `SND`: a step of `SND` that stays enabled is eventually taken (42_sender.md R100; log 15). -/
def FairSnd (r : Nat → State) (moves : Nat → Move) : Prop :=
  ∀ n, (∀ m, n ≤ m → sndEnabled (r m) = true) → ∃ m, n ≤ m ∧ StepTaken .sender r moves m

end Sys2Proof.Machine
end

