-- ==== Sys2Proof/Certificates/Slice0/Obligations.lean ====
section
/-! DEFINITION. The statements about the model. Each docstring names the rule of spec/ it formalises, or the spec's or the
model's own choice it rests on. `taken rest s` is the state in which one item has left RX: apart from the stream only the
model's own scheduling fields differ from `s` (log 3). -/

open Sys2Proof Sys2Proof.Machine

/-! ### Encoding -/

/-- 30_encoding.md R61, R67 (derived there): the stream decoder gives back every well-formed form from its encoding,
with whatever follows left over; the reserved header, whose first byte the stream takes as filler (R68), is given back
by the word decoder, as every word form is. -/
def Obligations.DecodeOfEncodeIsTheInstruction : Prop :=
  ∀ (i : Instr) (rest : List Byte), i.wellFormed = true →
    ((∀ x, i ≠ .rsvd00 x) → decode i.context (encode i ++ rest) = .ok (i, rest)) ∧
    (∀ w, encodeWord i = some w → decodeWord w = i ∧ encode i = wordBytes w)

/-- 30_encoding.md R67, R68 (derived there): whatever the stream decoder gives is well-formed, stands in the context it
was read in, is not the reserved header, and its encoding is exactly the bytes taken. -/
def Obligations.DecodedFormsAreTheirEncoding : Prop :=
  ∀ (c : StreamContext) (bytes : List Byte) (i : Instr) (rest : List Byte), decode c bytes = .ok (i, rest) →
    bytes = encode i ++ rest ∧ i.wellFormed = true ∧ i.context = c ∧ ∀ x, i ≠ .rsvd00 x

/-- 30_encoding.md R61 (derived there): every 48-bit value is the word of exactly one instruction. -/
def Obligations.EveryWordEncodesOneInstruction : Prop :=
  ∀ w : Word48, encodeWord (decodeWord w) = some w ∧ ∀ i, encodeWord i = some w → i = decodeWord w

/-- 30_encoding.md R63: match and mask select the instruction, the other 46 bits are its operands. -/
def Obligations.HeaderMaskSelectsInstruction : Prop :=
  ∀ w : Word48,
    (w &&& 0xC00000000000#48 = 0x400000000000#48 →
      decodeWord w = .read (BitVec.ofNat 32 (w.toNat / 2 ^ 14)) (BitVec.ofNat 14 w.toNat)) ∧
    (w &&& 0xC00000000000#48 = 0x800000000000#48 →
      decodeWord w = .write (BitVec.ofNat 32 (w.toNat / 2 ^ 14)) (BitVec.ofNat 14 w.toNat)) ∧
    (w &&& 0xC00000000000#48 = 0xC00000000000#48 → decodeWord w = .stop (BitVec.ofNat 46 w.toNat)) ∧
    (w &&& 0xC00000000000#48 = 0x000000000000#48 → decodeWord w = .rsvd00 (BitVec.ofNat 46 w.toNat))

/-- 95_test_vectors.md VE4, VE7, VE8, VE9, VE6: words written out from the spec decode to what they stand for. -/
def Obligations.SampleWordsDecode : Prop :=
  decode .boundary [0x40, 0x00, 0x00, 0x04, 0x00, 0x03] = .ok (.read 0x10 3, []) ∧
  decode .boundary [0x84, 0x8D, 0x15, 0x9E, 0x1A, 0xBC] = .ok (.write 0x12345678 0x1ABC, []) ∧
  decode .boundary [0x7F, 0xFF, 0xFF, 0xFF, 0xFF, 0xFF] = .ok (.read 0xFFFFFFFF 16383, []) ∧
  decode .boundary [0xBF, 0xFF, 0xFF, 0xFF, 0xC0, 0x02] = .ok (.write 0xFFFFFFFF 2, []) ∧
  decode .boundary [0xC4, 0x8D, 0x15, 0x9E, 0x1A, 0xBC] = .ok (.stop 0x048D159E1ABC, []) ∧
  decode .boundary [0x3F, 0x40] = .ok (.fill 0x3F, [0x40]) ∧
  decode .payload [0xC0, 0x00] = .ok (.data 0xC0, [0x00]) ∧
  decodeWord 0x000000000005 = .rsvd00 5

/-! ### The inbound agent -/

/-- 40_decoder.md R71, R72, R76 and 41_transfer.md R82, R83: when the next step is one of `IN` on a byte that makes a
form complete, the step is `exec` of the instruction decoded, at the state in which the item has left RX and, for a word,
the accumulator is reset. -/
def Obligations.StepRunsDecodedInstruction : Prop :=
  ∀ (s : State) (b : Byte) (rest : List RxItem) (i : Instr), ByteIsNext b rest s →
    (s.xs.kind = .writing → decode .payload [b] = .ok (i, []) → step s = exec i (taken rest s)) ∧
    (s.xs.kind ≠ .writing → s.cnt = 0 → decode .boundary [b] = .ok (i, []) → step s = exec i (taken rest s)) ∧
    (s.xs.kind ≠ .writing → s.cnt = 5 → decodeWord ((s.acc <<< 8) ||| b.setWidth 48) = i →
      step s = exec i { taken rest s with acc := 0, cnt := 0 })

/-- 41_transfer.md R83: while a Write transfer is active every byte is payload, and in the step after it leaves Writing
bytes go to the decoder again. -/
def Obligations.BytesAreRoutedByTransferState : Prop :=
  ∀ (s : State) (b : Byte) (rest : List RxItem), ByteIsNext b rest s →
    (s.xs.kind = .writing → step s = exec (.data b) (taken rest s)) ∧
    (s.xs.kind ≠ .writing → step s = decodeByte b (taken rest s))

/-- 40_decoder.md R75: a byte that is not filler is shifted into the low 8 bits of the accumulator and counted, no set
bit is ever dropped, and nothing else changes but the stop notice (its own statement). -/
def Obligations.ByteIsShiftedIntoAccumulator : Prop :=
  ∀ (s : State) (b : Byte) (rest : List RxItem), BlockInv s → ByteIsNext b rest s → s.xs.kind ≠ .writing →
    ¬ (s.cnt = 0 ∧ b.toNat < 0x40) →
    ((s.acc <<< 8) ||| b.setWidth 48).toNat = s.acc.toNat * 256 + b.toNat ∧
    (s.cnt < 5 → ∃ t, step s = .next t ∧
      t = { taken rest s with acc := (s.acc <<< 8) ||| b.setWidth 48, cnt := s.cnt + 1, stopPending := t.stopPending }) ∧
    (s.cnt = 5 → step s = exec (decodeWord ((s.acc <<< 8) ||| b.setWidth 48)) { taken rest s with acc := 0, cnt := 0 })

/-- 10_state.md R19, 40_decoder.md R74 (the spec's decision D10; log 17): the stop notice is set by the first byte of a word
whose top two bits are `11`, by nothing else, and never cleared. -/
def Obligations.StopNoticeIsSetByFirstByteOnly : Prop :=
  ∀ s t : State, step s = .next t →
    (t.stopPending = true ↔ s.stopPending = true ∨
      ∃ b rest, ByteIsNext b rest s ∧ s.xs.kind ≠ .writing ∧ s.cnt = 0 ∧ 0xC0 ≤ b.toNat)

/-- 40_decoder.md R73: a byte with top bits `00` is discarded at a word boundary, with no state written, and is an
ordinary byte of the word at every other position. -/
def Obligations.FillerOnlyAtWordBoundary : Prop :=
  ∀ (s : State) (b : Byte) (rest : List RxItem), ByteIsNext b rest s → s.xs.kind ≠ .writing → b.toNat < 0x40 →
    (s.cnt = 0 → step s = .next (taken rest s)) ∧
    (s.cnt ≠ 0 → s.cnt < 5 → step s =
      .next { taken rest s with acc := (s.acc <<< 8) ||| b.setWidth 48, cnt := s.cnt + 1 }) ∧
    (s.cnt = 5 → step s = exec (decodeWord ((s.acc <<< 8) ||| b.setWidth 48)) { taken rest s with acc := 0, cnt := 0 })

/-- 40_decoder.md R79 (derived there): any number of filler bytes at a word boundary leaves the block as it was. -/
def Obligations.FillerRunIsIdempotent : Prop :=
  ∀ (s : State) (bytes : List Byte) (rest : List RxItem) (sched : List Config.Agent),
    (∀ b ∈ bytes, b.toNat < 0x40) → s.halt = .none → s.cnt = 0 → s.xs.kind ≠ .writing →
    BytesAreNext bytes rest sched s →
    steps bytes.length s =
      .next { s with rx := rest, sched := sched, draws := s.draws + bytes.length }

/-- 40_decoder.md R72 against 30_encoding.md R67: taking the bytes of one form one at a time is running the form that
the stream decoder reads from them, whatever the form does; the steps are all of `IN`, none of the sender's between them. -/
def Obligations.FramerRefinesStreamDecoder : Prop :=
  ∀ (s : State) (bytes : List Byte) (i : Instr) (rest : List RxItem) (sched : List Config.Agent),
    s.halt = .none → s.cnt = 0 → decode (streamContext s) bytes = .ok (i, []) → BytesAreNext bytes rest sched s →
    steps bytes.length s =
      exec i { s with
        rx := rest, sched := sched, draws := s.draws + bytes.length,
        acc := if bytes.length = 6 then 0 else s.acc,
        stopPending := s.stopPending || i.isStop }

/-- 40_decoder.md R76: the sixth byte extracts the fields, resets the accumulator and runs the instruction in the same
step; every outcome, a fatal one included, leaves the accumulator empty. -/
def Obligations.SixthByteCompletesTheWord : Prop :=
  ∀ (s : State) (b : Byte) (rest : List RxItem) (w : Word48), ByteIsNext b rest s → s.xs.kind ≠ .writing → s.cnt = 5 →
    w = (s.acc <<< 8) ||| b.setWidth 48 →
    (w.toNat / 2 ^ 46 = 1 → step s = exec (.read (BitVec.ofNat 32 (w.toNat / 2 ^ 14)) (BitVec.ofNat 14 w.toNat))
      { taken rest s with acc := 0, cnt := 0 }) ∧
    (w.toNat / 2 ^ 46 = 2 → step s = exec (.write (BitVec.ofNat 32 (w.toNat / 2 ^ 14)) (BitVec.ofNat 14 w.toNat))
      { taken rest s with acc := 0, cnt := 0 }) ∧
    (w.toNat / 2 ^ 46 = 3 → step s = exec (.stop (BitVec.ofNat 46 w.toNat)) { taken rest s with acc := 0, cnt := 0 }) ∧
    (w.toNat / 2 ^ 46 = 0 → step s = exec (.rsvd00 (BitVec.ofNat 46 w.toNat)) { taken rest s with acc := 0, cnt := 0 }) ∧
    (∃ t, step s = .next t ∧ t.acc = 0 ∧ t.cnt = 0)

/-- 10_state.md R27: one step of `IN` takes exactly the oldest item, no other step takes any, without an item there is no
step of `IN`, and the host only appends. -/
def Obligations.InputIsTakenInOrder : Prop :=
  (∀ s : State, s.rx = [] → nextAgent s ≠ some .inbound) ∧
  (∀ s t : State, step s = .next t →
    (nextAgent s = some .inbound → ∃ item, s.rx = item :: t.rx) ∧ (nextAgent s ≠ some .inbound → t.rx = s.rx)) ∧
  (∀ (s : State) (item : RxItem), (hostOffer item s).rx = s.rx ++ [item] ∧
    { hostOffer item s with rx := s.rx } = s)

/-! ### The instructions -/

/-- 41_transfer.md R85 with 30_encoding.md R62; `l = 0` is included (the spec's decision D8). Completion of READ. -/
def Obligations.ReadArmsTheSender : Prop :=
  ∀ (a : Addr) (l : Len) (s : State), s.xs = .idle →
    exec (.read a l) s = .next { s with xs := .reading a (BitVec.ofNat 16 l.toNat) false }

/-- 41_transfer.md R86, and R87 for `l = 0` (the spec's decision D7; log 11). Completion of WRITE. -/
def Obligations.WriteStartsItsTransfer : Prop :=
  ∀ (a : Addr) (l : Len) (s : State), s.xs = .idle →
    (l ≠ 0 → exec (.write a l) s = .next { s with xs := .writing a (BitVec.ofNat 16 l.toNat) 0 }) ∧
    (l = 0 → exec (.write a l) s = .next s)

/-- 41_transfer.md R88: a payload byte is stored at `base + written`, or discarded with a report when that lies outside
the region; it is counted either way, and the last one returns the engine to Idle. Completion of DATA. -/
def Obligations.DataIsStoredAndCounted : Prop :=
  ∀ (b : Byte) (base : Addr) (expected written : Count) (s : State),
    s.xs = .writing base expected written → s.memLive = true → Memory.wf s.mem = true →
    ∃ t, exec (.data b) s = .next t ∧
      t.xs = (if written + 1 = expected then .idle else .writing base expected (written + 1)) ∧
      (∀ a, a ≠ base.toNat + written.toNat → byteAt t a = byteAt s a) ∧
      (base.toNat + written.toNat < s.cfg.memSize → byteAt t (base.toNat + written.toNat) = b ∧ t.diag = s.diag) ∧
      (s.cfg.memSize ≤ base.toNat + written.toNat →
        t.mem = s.mem ∧ t.diag = s.diag ++ [.outOfRange .write (base.toNat + written.toNat) 1])

/-- 41_transfer.md R88, 20_memory.md R44: the frame of DATA. Every byte but the one stored to reads as before, and
only the memory, the reports and the transfer state may change. -/
def Obligations.DataFrame : Prop :=
  ∀ (b : Byte) (s t : State), exec (.data b) s = .next t →
    (∀ a base expected written, s.xs = .writing base expected written → a ≠ payloadOffset base written →
      byteAt t a = byteAt s a) ∧
    { t with mem := s.mem, diag := s.diag, xs := s.xs } = s

/-- 41_transfer.md R89: STOP clears the communication flag and releases the region, in any transfer state. Completion of
STOP. -/
def Obligations.StopEndsCommunication : Prop :=
  ∀ (x : BitVec 46) (s : State), exec (.stop x) s = .next { s with halt := .stopped, memLive := false }

/-- 30_encoding.md R64: a STOP word's other 46 bits are ignored. -/
def Obligations.StopIgnoresItsOperands : Prop :=
  ∀ (v w : Word48) (s : State), v.toNat / 2 ^ 46 = 3 → w.toNat / 2 ^ 46 = 3 →
    exec (decodeWord v) s = exec (decodeWord w) s ∧
    exec (decodeWord w) s = .next { s with halt := .stopped, memLive := false }

/-- 40_decoder.md R73, and 41_transfer.md R90 (the spec's decision D12; log 9): filler and the reserved header change no
state. Completion of FILL and RSVD00. -/
def Obligations.FillerAndReservedChangeNothing : Prop :=
  (∀ (b : Byte) (s : State), exec (.fill b) s = .next s) ∧
  (∀ (x : BitVec 46) (s : State), exec (.rsvd00 x) s = .next s)

/-- 41_transfer.md R84 (the spec's decision D13; log 18) with 60_exceptions.md R101, R104: a READ or WRITE word that completes
while a transfer is active is reported with its header, operands and the transfer state, and ends communication. -/
def Obligations.SecondTransferIsProtocolViolation : Prop :=
  ∀ (a : Addr) (l : Len) (s : State), s.xs ≠ .idle →
    exec (.read a l) s = .next { s with
      diag := s.diag ++ [.fatalReport .protocolViolation (.protocol 0b01 a l s.xs)],
      halt := .fatal .protocolViolation, memLive := false } ∧
    exec (.write a l) s = .next { s with
      diag := s.diag ++ [.fatalReport .protocolViolation (.protocol 0b10 a l s.xs)],
      halt := .fatal .protocolViolation, memLive := false }

/-- 41_transfer.md R85, R86, R89, R90, 40_decoder.md R73: the frame of READ, WRITE, STOP, RSVD00 and FILL. None of them
touches memory, the decoder, the output or the input; only READ and WRITE from Idle change the transfer state; only READ and
WRITE in an active transfer report, and they and STOP alone end communication. -/
def Obligations.WordFormsFrame : Prop :=
  ∀ (i : Instr) (s t : State), (∀ b, i ≠ .data b) → exec i s = .next t →
    (∀ a, byteAt t a = byteAt s a) ∧
    { t with xs := s.xs, diag := s.diag, halt := s.halt, memLive := s.memLive } = s ∧
    (((∃ a l, i = .read a l) ∨ ∃ a l, i = .write a l) ∧ s.xs = .idle ∨ t.xs = s.xs) ∧
    (((∃ a l, i = .read a l) ∨ ∃ a l, i = .write a l) ∧ s.xs ≠ .idle ∨ t.diag = s.diag) ∧
    ((((∃ a l, i = .read a l) ∨ ∃ a l, i = .write a l) ∧ s.xs ≠ .idle) ∨ (∃ x, i = .stop x) ∨
      (t.halt = s.halt ∧ t.memLive = s.memLive))

/-- The model's own choice (log 7): 30_encoding.md R66 knows a payload byte only during a Write transfer, so DATA
outside one is refused by name; no step asks for it (ReachableStatesStepOn). -/
def Obligations.DataOutsideWritingIsRefused : Prop :=
  ∀ (b : Byte) (s : State), s.xs.kind ≠ .writing → exec (.data b) s = .refused .dataOutsideWriting

/-! ### The memory port -/

/-- 20_memory.md R42: every access to a released region faults and gives no value, and no step reaches one. -/
def Obligations.ReleasedRegionFaultsAndIsUnreachable : Prop :=
  (∀ (s : State) (off n : Nat) (b : Byte), s.memLive = false →
    memWrite off b s = .error (.useAfterRelease .write) ∧ memRead off n s = .error (.useAfterRelease .read) ∧
    getByte off s = .error (.useAfterRelease .read)) ∧
  (∀ (s : State) (e : Fault), BlockInv s → step s ≠ .fault e)

/-- 20_memory.md R44: a byte write in range stores the byte and leaves everything else; out of range it is discarded and
reported. That the memory keeps its canonical form is about the model's own representation (log 2). -/
def Obligations.ByteWriteStoresOrReports : Prop :=
  ∀ (s : State) (off : Nat) (b : Byte), s.memLive = true → Memory.wf s.mem = true →
    (off < s.cfg.memSize → ∃ t, memWrite off b s = .ok t ∧ byteAt t off = b ∧
      (∀ a, a ≠ off → byteAt t a = byteAt s a) ∧ Memory.wf t.mem = true ∧ { t with mem := s.mem } = s) ∧
    (s.cfg.memSize ≤ off → memWrite off b s = .ok { s with diag := s.diag ++ [.outOfRange .write off 1] })

/-- 20_memory.md R45 (with the spec's decision D14 for `n = 0`): a span read gives all of its bytes, ascending, and changes
nothing, or gives none and is reported. -/
def Obligations.SpanReadIsAllOrNothing : Prop :=
  ∀ (s : State) (off n : Nat), s.memLive = true →
    (off + n ≤ s.cfg.memSize → ∃ seq, memRead off n s = .ok (seq, s) ∧ seq.length = n ∧
      ∀ i, i < n → seq[i]? = some (byteAt s (off + i))) ∧
    (s.cfg.memSize < off + n → memRead off n s = .ok ([], { s with diag := s.diag ++ [.outOfRange .read off n] }))

/-- 20_memory.md R46, R47: the single byte read gives the byte, or 0 with a report; the size is MEM_SIZE. -/
def Obligations.SingleByteReadHasSentinel : Prop :=
  ∀ (s : State) (off : Nat), s.memLive = true →
    (off < memSize s → getByte off s = .ok (byteAt s off, s)) ∧
    (memSize s ≤ off → getByte off s = .ok (0, { s with diag := s.diag ++ [.outOfRange .read off 1] })) ∧
    memSize s = s.cfg.memSize

/-- 20_memory.md R35, in the model's own representation (log 2): memories that read alike are equal data. -/
def Obligations.EqualReadsAreEqualMemories : Prop :=
  ∀ m n : Memory, Memory.wf m = true → Memory.wf n = true → (∀ a, Memory.read m a = Memory.read n a) → m = n

/-- 10_state.md R29, 20_memory.md R52: a byte of memory changes only in a step of `IN` that takes a payload byte, at
the transfer's next offset, which is in the region, and takes that byte's value. -/
def Obligations.OnlyPayloadBytesChangeMemory : Prop :=
  ∀ (s t : State) (a : Nat), Memory.wf s.mem = true → step s = .next t → byteAt t a ≠ byteAt s a →
    ∃ b rest base expected written, ByteIsNext b rest s ∧ s.xs = .writing base expected written ∧
      a = base.toNat + written.toNat ∧ a < s.cfg.memSize ∧ byteAt t a = b

/-- 20_memory.md R36 (derived there, on the unbounded sums of the spec's decision D6; log 10): no step writes at or above
offset 4294983678. -/
def Obligations.HighOffsetsAreNeverWritten : Prop :=
  ∀ (s t : State) (a : Nat), BlockInv s → step s = .next t → 4294983678 ≤ a → byteAt t a = byteAt s a

/-- 20_memory.md R48, R51, 70_reset_and_hazards.md R123: the bytes after a WRITE word that its transfer still expects are
all payload, whatever their values; they land at ascending offsets, those in the region with nothing between them
changed, and the transfer then is over. -/
def Obligations.PayloadLandsInAscendingOrder : Prop :=
  ∀ (s : State) (base : Addr) (expected : Count) (bytes : List Byte) (rest : List RxItem) (sched : List Config.Agent),
    s.halt = .none → s.memLive = true → Memory.wf s.mem = true → s.xs = .writing base expected 0 →
    bytes.length = expected.toNat → 0 < bytes.length → BytesAreNext bytes rest sched s →
    ∃ t, steps bytes.length s = .next t ∧ t.xs = .idle ∧ t.rx = rest ∧
      t.acc = s.acc ∧ t.cnt = s.cnt ∧ t.stopPending = s.stopPending ∧ t.halt = .none ∧ t.tx = s.tx ∧
      (∀ i, i < bytes.length → base.toNat + i < s.cfg.memSize → some (byteAt t (base.toNat + i)) = bytes[i]?) ∧
      (∀ a, a < base.toNat ∨ base.toNat + bytes.length ≤ a ∨ s.cfg.memSize ≤ a → byteAt t a = byteAt s a)

/-- 20_memory.md R53 (derived there; length 0 rests on the spec's decisions D7 and D8: log 11, log 13): writing `data` at `a`
and then reading as many bytes from `a` replies with exactly `data`, for every address and length within the region and all
data; here the sender moves once, after the READ word, and the host accepts the reply. -/
def Obligations.WriteThenReadReturnsTheData : Prop :=
  ∀ (s : State) (a : Addr) (l : Len) (data : List Byte) (rest : List RxItem) (sched : List Config.Agent)
    (answers : List Config.TxAnswer),
    s.halt = .none → s.memLive = true → Memory.wf s.mem = true → s.xs = .idle → s.cnt = 0 →
    data.length = l.toNat → a.toNat + l.toNat ≤ s.cfg.memSize →
    s.txAnswers = .ok :: answers →
    BytesAreNext (encode (.write a l) ++ data ++ encode (.read a l)) rest (.sender :: sched) s →
    ∃ t, steps (l.toNat + 13) s = .next t ∧ t.tx = s.tx ++ data ∧
      t.xs = .reading a (BitVec.ofNat 16 l.toNat) true ∧ t.halt = .none ∧ t.diag = s.diag

/-! ### The sender -/

/-- 42_sender.md R93, R97, R98 (derived; the spec's decisions D8, D9): the emit step of an in-range span, whose write, if
there is one, is accepted, sends exactly the span's bytes in ascending order and marks the transfer drained. -/
def Obligations.EmitSendsTheSpan : Prop :=
  ∀ (s : State) (base : Addr) (length : Count), nextAgent s = some .sender → s.xs = .reading base length false →
    s.memLive = true → base.toNat + length.toNat ≤ s.cfg.memSize →
    (length = 0 ∨ txAnswer (advance s) = .ok) →
    ∃ t seq, step s = .next t ∧ seq.length = length.toNat ∧
      (∀ i, i < length.toNat → seq[i]? = some (byteAt s (base.toNat + i))) ∧
      t = { s with tx := s.tx ++ seq, xs := .reading base length true, txAnswers := t.txAnswers,
                   sched := s.sched.tail, draws := s.draws + 1 } ∧
      t.txAnswers = (if length = 0 then s.txAnswers else s.txAnswers.tail)

/-- 42_sender.md R97, 70_reset_and_hazards.md R126 (derived): a span with any byte outside the region sends nothing, is
reported once, and still drains. -/
def Obligations.OutOfRangeReadSendsNothing : Prop :=
  ∀ (s : State) (base : Addr) (length : Count), nextAgent s = some .sender → s.xs = .reading base length false →
    s.memLive = true → s.cfg.memSize < base.toNat + length.toNat →
    step s = .next { s with
      diag := s.diag ++ [.outOfRange .read base.toNat length.toNat], xs := .reading base length true,
      sched := s.sched.tail, draws := s.draws + 1 }

/-- 60_exceptions.md R108: a `fail` answer to the sender's write is a fatal TransportFailure in that step; the prefix that
reached the host is the answer's draw (the spec's decision D17; log 4). -/
def Obligations.FailedReplyIsTransportFailure : Prop :=
  ∀ (s : State) (base : Addr) (length : Count) (k : Nat), nextAgent s = some .sender →
    s.xs = .reading base length false → s.memLive = true → base.toNat + length.toNat ≤ s.cfg.memSize → length ≠ 0 →
    txAnswer (advance s) = .fail k →
    ∃ t, step s = .next t ∧ t.halt = .fatal .transportFailure ∧ t.memLive = false ∧
      t.diag = s.diag ++ [.fatalReport .transportFailure (.transport .txFail)] ∧
      t.tx = s.tx ++ (List.range (min k length.toNat)).map (fun i => byteAt s (base.toNat + i)) ∧
      t.xs = s.xs ∧ t.mem = s.mem ∧ t.acc = s.acc ∧ t.cnt = s.cnt ∧ t.stopPending = s.stopPending ∧ t.rx = s.rx

/-- 42_sender.md R94 (the spec's decision D9): a drained transfer is cleared to Idle and nothing else changes. -/
def Obligations.ClearEndsTheReadTransfer : Prop :=
  ∀ (s : State) (base : Addr) (length : Count), nextAgent s = some .sender → s.xs = .reading base length true →
    step s = .next { s with xs := .idle, sched := s.sched.tail, draws := s.draws + 1 }

/-- 10_state.md R18: the accumulator changes only where the decoder takes a byte; the sender neither writes nor reads
it. -/
def Obligations.SenderNeverTouchesTheAccumulator : Prop :=
  (∀ s t : State, step s = .next t → (t.acc ≠ s.acc ∨ t.cnt ≠ s.cnt) →
    ∃ b rest, ByteIsNext b rest s ∧ s.xs.kind ≠ .writing) ∧
  (∀ s : State, nextAgent s = some .sender →
    (∀ t, step s = .next t → t.acc = s.acc ∧ t.cnt = s.cnt) ∧
    (∀ (x : Word48) (n : Nat), step { s with acc := x, cnt := n } = mapNext (fun t => { t with acc := x, cnt := n }) (step s)))

/-- 10_state.md R29, R115: the frame of the sender. It changes the transfer state, the output, the reports and the end, and
of these never the memory, the decoder, the input or the parameters. -/
def Obligations.SenderFrame : Prop :=
  ∀ s t : State, nextAgent s = some .sender → step s = .next t →
    { t with xs := s.xs, tx := s.tx, diag := s.diag, halt := s.halt, memLive := s.memLive,
             txAnswers := s.txAnswers, sched := s.sched, draws := s.draws } = s ∧
    (∀ a, byteAt t a = byteAt s a)

/-- 42_sender.md R99: only the sender writes to the transport, and only bytes of the span of the transfer at hand. -/
def Obligations.OnlyTheSenderSendsAndOnlyReplies : Prop :=
  ∀ s t : State, step s = .next t → t.tx = s.tx ∨
    (nextAgent s = some .sender ∧ ∃ base length k, s.xs = .reading base length false ∧ k ≤ length.toNat ∧
      base.toNat + length.toNat ≤ s.cfg.memSize ∧
      t.tx = s.tx ++ (List.range k).map (fun i => byteAt s (base.toNat + i)))

/-! ### Errors and the end of communication -/

/-- 60_exceptions.md R106: an input failure is a fatal TransportFailure in any transfer state, in the middle of a word or
of a payload too; the partial word or transfer stays as it was, abandoned. -/
def Obligations.InputFailureIsFatal : Prop :=
  ∀ (s : State) (rest : List RxItem), nextAgent s = some .inbound → s.rx = .fail :: rest →
    step s = .next { taken rest s with
      diag := s.diag ++ [.fatalReport .transportFailure (.transport .rxFail)],
      halt := .fatal .transportFailure, memLive := false }

/-- 60_exceptions.md R107 (the spec's decision D16; log 20): so is the end of the stream. -/
def Obligations.EndOfStreamIsFatal : Prop :=
  ∀ (s : State) (rest : List RxItem), nextAgent s = some .inbound → s.rx = .eos :: rest →
    step s = .next { taken rest s with
      diag := s.diag ++ [.fatalReport .transportFailure (.transport .rxEos)],
      halt := .fatal .transportFailure, memLive := false }

/-- 60_exceptions.md R103: a report of OutOfRange changes nothing but the list of reports, and the step goes on: a payload
byte still counts, a read reply is empty and still drains and clears. -/
def Obligations.OutOfRangeIsRecoveredLocally : Prop :=
  (∀ (op : AccessOp) (off n : Nat) (s : State),
    reportOutOfRange op off n s = { s with diag := s.diag ++ [.outOfRange op off n] }) ∧
  (∀ (b : Byte) (base : Addr) (expected written : Count) (s : State), s.xs = .writing base expected written →
    s.memLive = true → s.cfg.memSize ≤ base.toNat + written.toNat →
    exec (.data b) s = .next { s with
      diag := s.diag ++ [.outOfRange .write (base.toNat + written.toNat) 1],
      xs := if written + 1 = expected then .idle else .writing base expected (written + 1) }) ∧
  (∀ (base : Addr) (length : Count) (s : State), s.xs = .reading base length false → s.memLive = true →
    s.cfg.memSize < base.toNat + length.toNat →
    ∃ t, sndStep s = .next t ∧
      t = { s with diag := s.diag ++ [.outOfRange .read base.toNat length.toNat], xs := .reading base length true } ∧
      sndStep t = .next { t with xs := .idle })

/-- 60_exceptions.md R102, R111 (the spec's decisions D19, D29): a step appends at most one record, and it reports a fatal
condition exactly when it ends communication with that cause. -/
def Obligations.AtMostOneReportPerStep : Prop :=
  ∀ s t : State, step s = .next t →
    (t.diag = s.diag ∨ ∃ d, t.diag = s.diag ++ [d]) ∧
    (∀ k, (s.halt = .none ∧ t.halt = .fatal k) ↔ ∃ info, t.diag = s.diag ++ [.fatalReport k info])

/-- 10_state.md R25: once communication has ended no step is enabled; that `step` then answers the same state is the model's
reading (log 6). -/
def Obligations.EndedCommunicationIsTerminal : Prop :=
  ∀ s : State, s.halt ≠ .none →
    inEnabled s = false ∧ sndEnabled s = false ∧ nextAgent s = none ∧ step s = .next s

/-- 41_transfer.md R84, R89, 60_exceptions.md R104, R106, R107, R108 (derived): communication ends only in these steps, and
the step that ends it releases the region. -/
def Obligations.OnlyTheseStepsEndCommunication : Prop :=
  ∀ s t : State, step s = .next t → s.halt = .none → t.halt ≠ .none →
    t.memLive = false ∧
    ((t.halt = .stopped ∧ ∃ b rest x, ByteIsNext b rest s ∧ s.xs.kind ≠ .writing ∧ s.cnt = 5 ∧
        decodeWord ((s.acc <<< 8) ||| b.setWidth 48) = .stop x) ∨
     (t.halt = .fatal .protocolViolation ∧ ∃ b rest a l, ByteIsNext b rest s ∧ s.xs.kind = .reading ∧ s.cnt = 5 ∧
        (decodeWord ((s.acc <<< 8) ||| b.setWidth 48) = .read a l ∨
         decodeWord ((s.acc <<< 8) ||| b.setWidth 48) = .write a l)) ∨
     (t.halt = .fatal .transportFailure ∧ nextAgent s = some .inbound ∧
        ∃ rest, s.rx = .eos :: rest ∨ s.rx = .fail :: rest) ∨
     (t.halt = .fatal .transportFailure ∧ nextAgent s = some .sender ∧
        ∃ base length k, s.xs = .reading base length false ∧ txAnswer (advance s) = .fail k))

/-- 10_state.md R23: the transfer state changes only in a step of `IN` that completes a READ or WRITE word, in one that
takes a payload byte, and in a step of `SND` on a Reading transfer. -/
def Obligations.OnlyTheseStepsChangeTheTransferState : Prop :=
  ∀ s t : State, step s = .next t → t.xs ≠ s.xs →
    (∃ b rest a l, ByteIsNext b rest s ∧ s.xs.kind ≠ .writing ∧ s.cnt = 5 ∧
      (decodeWord ((s.acc <<< 8) ||| b.setWidth 48) = .read a l ∨
       decodeWord ((s.acc <<< 8) ||| b.setWidth 48) = .write a l)) ∨
    (∃ b rest, ByteIsNext b rest s ∧ s.xs.kind = .writing) ∨
    (nextAgent s = some .sender ∧ s.xs.kind = .reading)

/-- 60_exceptions.md R109, 10_state.md R24, R30: the end status is a parameter of the launch: none while communication is
active, `EXIT_STOP` after a Stop, `EXIT_FATAL`, which is not zero, after a fatal condition. -/
def Obligations.EndStatusFollowsTheEnd : Prop :=
  ∀ s : State, BlockInv s →
    (commActive s = true ↔ exitStatus s = none) ∧
    (s.halt = .stopped → exitStatus s = some s.cfg.exitStop) ∧
    (∀ k, s.halt = .fatal k → exitStatus s = some s.cfg.exitFatal ∧ s.cfg.exitFatal ≠ 0)

/-! ### Launch, invariants, whole-machine rules -/

/-- 60_exceptions.md R105: a failed allocation launches into the fatal state, with one report and no region, before any
transfer; that `step` then answers the same state is the model's reading (log 6). -/
def Obligations.FailedAllocationIsFatalAtLaunch : Prop :=
  ∀ p : Config.Params, p.allocOk = false →
    (State.launch p).halt = .fatal .allocationFailure ∧ (State.launch p).memLive = false ∧
    (State.launch p).mem = [] ∧
    (State.launch p).diag = [.fatalReport .allocationFailure (.allocation p.memSize)] ∧
    (State.launch p).xs = .idle ∧ step (State.launch p) = .next (State.launch p)

/-- 10_state.md R33 (the spec's decision D4; log 12), 20_memory.md R41: what a launch leaves, for every MEM_SIZE and MEM_INIT; the
last clause is about the model's own fields and its waiting step (log 5, log 6). -/
def Obligations.LaunchLeavesTheResetValues : Prop :=
  ∀ p : Config.Params, p.allocOk = true →
    (State.launch p).acc = 0 ∧ (State.launch p).cnt = 0 ∧ (State.launch p).stopPending = false ∧
    (State.launch p).xs = .idle ∧ (State.launch p).halt = .none ∧ (State.launch p).memLive = true ∧
    (∀ a, byteAt (State.launch p) a = Memory.read p.memInit a) ∧ (State.launch p).diag = [] ∧
    (State.launch p).tx = [] ∧ (State.launch p).cfg = p ∧
    ((State.launch p).rx = [] ∧ step (State.launch p) = .next (State.launch p))

/-- 10_state.md R17, R21, R26, R33: every launch with parameters in their ranges meets the invariant, `State.reset` among
them (whose parameters are the model's choice: log 1). -/
def Obligations.LaunchMeetsTheInvariant : Prop :=
  (∀ p : Config.Params, paramsOk p = true → BlockInv (State.launch p)) ∧ BlockInv State.reset

/-- 10_state.md R17, R19, R21, R26, 40_decoder.md R78, R80, 60_exceptions.md R104, R113 (derived): every step keeps the
invariant. -/
def Obligations.EveryStepKeepsTheInvariant : Prop :=
  ∀ s t : State, BlockInv s → step s = .next t → BlockInv t

/-- 20_memory.md R42, 10_state.md R26, 40_decoder.md R78 (derived): whatever the host sends, answers and schedules, every
state reached from any launch meets the invariant, and its step is a next state, never a fault or a refusal. -/
def Obligations.ReachableStatesStepOn : Prop :=
  ∀ s : State, Reachable s → BlockInv s ∧ StepsOn s

/-- 10_state.md R19 (the spec's decision D10; log 17): no rule of the block reads the stop notice, so two states that differ in it
alone step alike. -/
def Obligations.StopNoticeIsReadByNoStep : Prop :=
  ∀ (s : State) (v : Bool),
    mapNext (fun t => { t with stopPending := false }) (step { s with stopPending := v }) =
      mapNext (fun t => { t with stopPending := false }) (step s)

/-- 60_exceptions.md R117 (the spec's decision D27), 10_state.md R32: no step reads `VERBOSE`, and no step changes any
parameter. -/
def Obligations.ParametersAreConstantAndVerboseUnread : Prop :=
  (∀ s t : State, step s = .next t → t.cfg = s.cfg) ∧
  (∀ (s : State) (v : Bool), step { s with cfg := { s.cfg with verbose := v } } =
    mapNext (fun t => { t with cfg := { t.cfg with verbose := v } }) (step s))

/-- 00_scope.md R11 (the spec's decision D3; log 22), 60_exceptions.md R118: the agent that moves has an enabled step, some agent
moves whenever one has, and where both have either may be the one; that `step` waits where none has is the model's reading
(log 6). -/
def Obligations.AnyEnabledAgentMayMove : Prop :=
  (∀ s : State, nextAgent s = some .inbound → inEnabled s = true) ∧
  (∀ s : State, nextAgent s = some .sender → sndEnabled s = true) ∧
  (∀ s : State, nextAgent s = none ↔ inEnabled s = false ∧ sndEnabled s = false) ∧
  (∀ (s : State) (a : Config.Agent), inEnabled s = true → sndEnabled s = true →
    nextAgent { s with sched := a :: s.sched } = some a) ∧
  (∀ s : State, nextAgent s = none → step s = .next s)

/-- 70_reset_and_hazards.md R122, 60_exceptions.md R111 (the spec's decisions D9, D31): after the whole reply has been sent,
the sixth byte of a READ or WRITE word is a ProtocolViolation if it is taken before the sender's clear, and starts its
transfer if it is taken after: the same input, two orders, two ends. -/
def Obligations.ReadHazardDependsOnTheOrder : Prop :=
  ∀ (s : State) (base : Addr) (length : Count) (b : Byte) (rest : List RxItem) (sched : List Config.Agent) (i : Instr),
    s.halt = .none → s.xs = .reading base length true → s.cnt = 5 → s.rx = .byte b :: rest →
    decodeWord ((s.acc <<< 8) ||| b.setWidth 48) = i → ((∃ a l, i = .read a l) ∨ ∃ a l, i = .write a l) →
    (∃ t, steps 1 { s with sched := .inbound :: sched } = .next t ∧
      t.halt = .fatal .protocolViolation ∧ t.memLive = false) ∧
    (∃ t, steps 2 { s with sched := .sender :: sched } = .next t ∧ t.halt = .none ∧
      exec i { s with xs := .idle, rx := rest, acc := 0, cnt := 0, sched := sched.tail, draws := s.draws + 2 } = .next t)

/-- 42_sender.md R100 (the spec's decision D35; log 15): in a run that is weakly fair to the sender, whatever the host appends,
answers and schedules meanwhile and for ever, every Read transfer lasts until a later point at which the engine is Idle or
communication has ended. -/
def Obligations.FairSenderEndsEveryRead : Prop :=
  ∀ (r : Nat → State) (moves : Nat → Move) (n : Nat) (base : Addr) (length : Count) (drained : Bool),
    IsRun r moves → FairSnd r moves → (r n).xs = .reading base length drained →
    ∃ m, n ≤ m ∧ ((r m).xs = .idle ∨ (r m).halt ≠ .none) ∧
      ∀ k, n ≤ k → k < m → ∃ d, (r k).xs = .reading base length d

/-- 40_decoder.md R81 (the spec's decision D35; log 15): in a run that is weakly fair to `IN` the item at the head of RX is
taken by a step of `IN`, whatever the host has appended behind it, unless communication ends first. -/
def Obligations.FairInboundTakesEveryItem : Prop :=
  ∀ (r : Nat → State) (moves : Nat → Move) (n : Nat) (item : RxItem) (rest : List RxItem),
    IsRun r moves → FairIn r moves → (r n).rx = item :: rest →
    ∃ m, n ≤ m ∧ ((r m).halt ≠ .none ∨
      (StepTaken .inbound r moves m ∧
        ∃ appended, (r m).rx = item :: (rest ++ appended) ∧ (r (m + 1)).rx = rest ++ appended))

/-- 70_reset_and_hazards.md R129, 60_exceptions.md R118 (log 6, log 15): progress rests on the host's input and on fairness and
on nothing else, there being no time. Outside a Read transfer with no item on RX the block stays as it is until the host offers
one, `sched` and `txAnswers` being the environment's; and while the host offers items for ever and `IN` takes steps for ever, a
Read transfer can last for ever in a run that is fair to `IN` and not to the sender. -/
def Obligations.ProgressRestsOnInputAndFairness : Prop :=
  (∀ (r : Nat → State) (moves : Nat → Move) (n m : Nat), IsRun r moves → (r n).rx = [] → (r n).xs.kind ≠ .reading →
    n ≤ m → (∀ k item, n ≤ k → k < m → moves k ≠ .offer item) →
    { r m with sched := (r n).sched, txAnswers := (r n).txAnswers } = r n) ∧
  (∀ s : State, s.halt = .none → s.xs.kind = .reading → s.cnt = 0 → s.rx = [] → s.sched = [] →
    ∃ r moves, r 0 = s ∧ IsRun r moves ∧ FairIn r moves ∧ ¬ FairSnd r moves ∧
      (∀ n, ∃ m, n ≤ m ∧ ∃ item, moves m = .offer item) ∧
      (∀ n, ∃ m, n ≤ m ∧ StepTaken .inbound r moves m) ∧
      ∀ n, (r n).xs = s.xs ∧ (r n).halt = .none ∧ (r n).tx = s.tx)
end

