-- ==== Sys2Proof/Laws/Decode.lean ====
section
/-! SUPPORT. The fields of a word and of a byte as arithmetic on their numbers, the word as its bytes shifted in one at
a time, and the fields of an encoded word. -/

namespace Sys2Proof

theorem byteTag_toNat (b : Byte) : (byteTag b).toNat = b.toNat / 64 := by
  have := b.isLt
  simp only [byteTag, BitVec.extractLsb'_toNat, Nat.shiftRight_eq_div_pow]
  omega

/-- A byte is a filler value exactly when it is below 0x40 (30_encoding.md R65). -/
theorem byteTag_eq_zero (b : Byte) : byteTag b = 0b00#2 ↔ b.toNat < 64 := by
  rw [← BitVec.toNat_inj, byteTag_toNat]
  simp only [BitVec.toNat_ofNat]
  omega

theorem byteTag_eq_three (b : Byte) : byteTag b = 0b11#2 ↔ 192 ≤ b.toNat := by
  have := b.isLt
  rw [← BitVec.toNat_inj, byteTag_toNat]
  simp only [BitVec.toNat_ofNat]
  omega

theorem wordHdr_toNat (w : Word48) : (wordHdr w).toNat = w.toNat / 2 ^ 46 := by
  have := w.isLt
  simp only [wordHdr, BitVec.extractLsb'_toNat, Nat.shiftRight_eq_div_pow]
  omega

theorem wordAddr_toNat (w : Word48) : (wordAddr w).toNat = w.toNat / 2 ^ 14 % 2 ^ 32 := by
  simp only [wordAddr, BitVec.extractLsb'_toNat, Nat.shiftRight_eq_div_pow]

theorem wordLen_toNat (w : Word48) : (wordLen w).toNat = w.toNat % 2 ^ 14 := by
  simp [wordLen, BitVec.extractLsb'_toNat]

theorem wordRest_toNat (w : Word48) : (wordRest w).toNat = w.toNat % 2 ^ 46 := by
  simp [wordRest, BitVec.extractLsb'_toNat]

theorem wordByte_toNat (w : Word48) (k : Nat) : (wordByte w k).toNat = w.toNat / 2 ^ (40 - 8 * k) % 256 := by
  simp only [wordByte, BitVec.extractLsb'_toNat, Nat.shiftRight_eq_div_pow]

/-- `acc <<< 8 ||| b` as arithmetic on 48 bits (40_decoder.md R75). -/
theorem shiftIn_toNat (acc : Word48) (b : Byte) :
    (shiftIn acc b).toNat = (acc.toNat * 256 + b.toNat) % 2 ^ 48 := by
  have hb := b.isLt
  have hd : acc.toNat * 256 % 2 ^ 48 = 256 * (acc.toNat % 2 ^ 40) := by omega
  simp only [shiftIn, BitVec.toNat_or, BitVec.toNat_shiftLeft, Nat.shiftLeft_eq, BitVec.toNat_setWidth]
  rw [show (2 : Nat) ^ 8 = 256 from rfl, hd, Nat.mod_eq_of_lt (by omega : b.toNat < 2 ^ 48)]
  rw [show 256 * (acc.toNat % 2 ^ 40) = 2 ^ 8 * (acc.toNat % 2 ^ 40) from rfl, ← Nat.two_pow_add_eq_or_of_lt hb]
  omega

theorem joinBytes_toNat (b0 b1 b2 b3 b4 b5 : Byte) :
    (joinBytes b0 b1 b2 b3 b4 b5).toNat =
      b0.toNat * 2 ^ 40 + b1.toNat * 2 ^ 32 + b2.toNat * 2 ^ 24 + b3.toNat * 2 ^ 16 + b4.toNat * 2 ^ 8 + b5.toNat := by
  have h0 := b0.isLt
  have h1 := b1.isLt
  have h2 := b2.isLt
  have h3 := b3.isLt
  have h4 := b4.isLt
  have h5 := b5.isLt
  simp only [joinBytes, BitVec.toNat_append, Nat.shiftLeft_eq]
  repeat rw [Nat.mul_comm _ (2 ^ 8), ← Nat.two_pow_add_eq_or_of_lt (by assumption)]
  omega

/-- Six bytes shifted in are the word they make, whatever the accumulator held (30_encoding.md R58). -/
theorem shiftIn_six (acc : Word48) (b0 b1 b2 b3 b4 b5 : Byte) :
    shiftIn (shiftIn (shiftIn (shiftIn (shiftIn (shiftIn acc b0) b1) b2) b3) b4) b5 = joinBytes b0 b1 b2 b3 b4 b5 := by
  apply BitVec.eq_of_toNat_eq
  have h0 := b0.isLt
  have h1 := b1.isLt
  have h2 := b2.isLt
  have h3 := b3.isLt
  have h4 := b4.isLt
  have h5 := b5.isLt
  simp only [shiftIn_toNat, joinBytes_toNat]
  omega

/-- The header is the top two bits of the first byte (30_encoding.md R60). -/
theorem wordHdr_joinBytes (b0 b1 b2 b3 b4 b5 : Byte) : wordHdr (joinBytes b0 b1 b2 b3 b4 b5) = byteTag b0 := by
  apply BitVec.eq_of_toNat_eq
  have h1 := b1.isLt
  have h2 := b2.isLt
  have h3 := b3.isLt
  have h4 := b4.isLt
  have h5 := b5.isLt
  rw [wordHdr_toNat, byteTag_toNat, joinBytes_toNat]
  omega

theorem joinBytes_wordBytes (w : Word48) :
    joinBytes (wordByte w 0) (wordByte w 1) (wordByte w 2) (wordByte w 3) (wordByte w 4) (wordByte w 5) = w := by
  apply BitVec.eq_of_toNat_eq
  have hw := w.isLt
  simp only [joinBytes_toNat, wordByte_toNat]
  omega

theorem encFields_toNat (h : Hdr) (a : Addr) (l : Len) :
    (encFields h a l).toNat = h.toNat * 2 ^ 46 + a.toNat * 2 ^ 14 + l.toNat := by
  have ha := a.isLt
  have hl := l.isLt
  simp only [encFields, BitVec.toNat_append, Nat.shiftLeft_eq]
  rw [Nat.mul_comm _ (2 ^ 32), ← Nat.two_pow_add_eq_or_of_lt ha, Nat.mul_comm _ (2 ^ 14),
    ← Nat.two_pow_add_eq_or_of_lt hl]
  omega

theorem encRest_toNat (h : Hdr) (x : BitVec 46) : (encRest h x).toNat = h.toNat * 2 ^ 46 + x.toNat := by
  have hx := x.isLt
  simp only [encRest, BitVec.toNat_append, Nat.shiftLeft_eq]
  rw [Nat.mul_comm _ (2 ^ 46), ← Nat.two_pow_add_eq_or_of_lt hx]

@[simp] theorem wordHdr_encFields (h : Hdr) (a : Addr) (l : Len) : wordHdr (encFields h a l) = h := by
  apply BitVec.eq_of_toNat_eq
  have ha := a.isLt
  have hl := l.isLt
  rw [wordHdr_toNat, encFields_toNat]
  omega

@[simp] theorem wordAddr_encFields (h : Hdr) (a : Addr) (l : Len) : wordAddr (encFields h a l) = a := by
  apply BitVec.eq_of_toNat_eq
  have ha := a.isLt
  have hl := l.isLt
  rw [wordAddr_toNat, encFields_toNat]
  omega

@[simp] theorem wordLen_encFields (h : Hdr) (a : Addr) (l : Len) : wordLen (encFields h a l) = l := by
  apply BitVec.eq_of_toNat_eq
  have hl := l.isLt
  rw [wordLen_toNat, encFields_toNat]
  omega

@[simp] theorem wordHdr_encRest (h : Hdr) (x : BitVec 46) : wordHdr (encRest h x) = h := by
  apply BitVec.eq_of_toNat_eq
  have hx := x.isLt
  rw [wordHdr_toNat, encRest_toNat]
  omega

@[simp] theorem wordRest_encRest (h : Hdr) (x : BitVec 46) : wordRest (encRest h x) = x := by
  apply BitVec.eq_of_toNat_eq
  have hx := x.isLt
  rw [wordRest_toNat, encRest_toNat]
  omega

@[simp] theorem encFields_fields (w : Word48) : encFields (wordHdr w) (wordAddr w) (wordLen w) = w := by
  apply BitVec.eq_of_toNat_eq
  rw [encFields_toNat, wordHdr_toNat, wordAddr_toNat, wordLen_toNat]
  omega

@[simp] theorem encRest_fields (w : Word48) : encRest (wordHdr w) (wordRest w) = w := by
  apply BitVec.eq_of_toNat_eq
  rw [encRest_toNat, wordHdr_toNat, wordRest_toNat]
  omega

/-- Everything a completed word can decode to (30_encoding.md R63). -/
theorem decodeWord_cases (w : Word48) :
    (wordHdr w = 0b01#2 ∧ decodeWord w = .read (wordAddr w) (wordLen w)) ∨
    (wordHdr w = 0b10#2 ∧ decodeWord w = .write (wordAddr w) (wordLen w)) ∨
    (wordHdr w = 0b11#2 ∧ decodeWord w = .stop (wordRest w)) ∨
    (wordHdr w = 0b00#2 ∧ decodeWord w = .rsvd00 (wordRest w)) := by
  have h4 : ∀ h : BitVec 2, h = 0b01#2 ∨ h = 0b10#2 ∨ h = 0b11#2 ∨ h = 0b00#2 := by decide
  rcases h4 (wordHdr w) with h | h | h | h
  · exact .inl ⟨h, by simp [decodeWord, h]⟩
  · exact .inr (.inl ⟨h, by simp [decodeWord, h]⟩)
  · exact .inr (.inr (.inl ⟨h, by simp [decodeWord, h]⟩))
  · exact .inr (.inr (.inr ⟨h, by simp [decodeWord, h]⟩))

end Sys2Proof
end

