-- ==== Sys2Proof/Laws/Memory.lean ====
section
/-! SUPPORT. The laws of the memory contents: the canonical form is kept, a read after a write gives the byte written
there and the old byte everywhere else, and equal reads are equal contents. -/

namespace Sys2Proof.Machine

@[simp] theorem Memory.read_nil (a : Nat) : Memory.read [] a = 0#8 := rfl

theorem Memory.read_cons (k a : Nat) (v : Byte) (m : Memory) :
    Memory.read ((k, v) :: m) a = if k = a then v else Memory.read m a := rfl

theorem Memory.wfFrom_cons {lo k : Nat} {v : Byte} {m : Memory} :
    Memory.wfFrom lo ((k, v) :: m) = true ↔ lo ≤ k ∧ v ≠ 0#8 ∧ Memory.wfFrom (k + 1) m = true := by
  simp [Memory.wfFrom, and_assoc]

theorem Memory.wfFrom_mono {lo lo' : Nat} {m : Memory} (h : Memory.wfFrom lo m = true) (hl : lo' ≤ lo) :
    Memory.wfFrom lo' m = true := by
  cases m with
  | nil => rfl
  | cons c m =>
    obtain ⟨k, v⟩ := c
    rw [Memory.wfFrom_cons] at h ⊢
    exact ⟨by omega, h.2⟩

/-- Below the least listed offset everything reads 0. -/
theorem Memory.read_below {lo : Nat} {m : Memory} (h : Memory.wfFrom lo m = true) {a : Nat} (ha : a < lo) :
    Memory.read m a = 0#8 := by
  induction m generalizing lo with
  | nil => rfl
  | cons c m ih =>
    obtain ⟨k, v⟩ := c
    rw [Memory.wfFrom_cons] at h
    rw [Memory.read_cons, if_neg (by omega)]
    exact ih h.2.2 (by omega)

theorem Memory.write_wfFrom {lo : Nat} {m : Memory} (h : Memory.wfFrom lo m = true) {a : Nat} (ha : lo ≤ a) (b : Byte) :
    Memory.wfFrom lo (Memory.write m a b) = true := by
  induction m generalizing lo with
  | nil => by_cases hb : b = 0#8 <;> simp [Memory.write, Memory.wfFrom, hb, ha]
  | cons c m ih =>
    obtain ⟨k, v⟩ := c
    have hc := h
    rw [Memory.wfFrom_cons] at h
    unfold Memory.write
    split
    · split
      · exact hc
      · rw [Memory.wfFrom_cons, Memory.wfFrom_cons]
        exact ⟨ha, ‹_›, by omega, h.2.1, h.2.2⟩
    · split
      · split
        · exact Memory.wfFrom_mono h.2.2 (by omega)
        · subst a
          rw [Memory.wfFrom_cons]
          exact ⟨ha, ‹_›, h.2.2⟩
      · rw [Memory.wfFrom_cons]
        exact ⟨h.1, h.2.1, ih h.2.2 (by omega)⟩

/-- A write keeps the canonical form. -/
theorem Memory.write_wf {m : Memory} (h : Memory.wf m = true) (a : Nat) (b : Byte) :
    Memory.wf (Memory.write m a b) = true :=
  Memory.write_wfFrom h (Nat.zero_le a) b

/-- A write leaves every other offset alone. -/
theorem Memory.read_write_other (m : Memory) {a a' : Nat} (h : a' ≠ a) (b : Byte) :
    Memory.read (Memory.write m a b) a' = Memory.read m a' := by
  induction m with
  | nil => by_cases hb : b = 0#8 <;> simp [Memory.write, Memory.read_cons, hb, h.symm]
  | cons c m ih =>
    obtain ⟨k, v⟩ := c
    unfold Memory.write
    split
    · split
      · rfl
      · rw [Memory.read_cons a, if_neg h.symm]
    · split
      · subst a
        split <;> simp [Memory.read_cons, h.symm]
      · rw [Memory.read_cons, Memory.read_cons, ih]

theorem Memory.read_write_same_from {lo : Nat} {m : Memory} (h : Memory.wfFrom lo m = true) (a : Nat) (b : Byte) :
    Memory.read (Memory.write m a b) a = b := by
  induction m generalizing lo with
  | nil => by_cases hb : b = 0#8 <;> simp [Memory.write, Memory.read_cons, hb]
  | cons c m ih =>
    obtain ⟨k, v⟩ := c
    rw [Memory.wfFrom_cons] at h
    unfold Memory.write
    split
    · split
      · rw [Memory.read_cons, if_neg (by omega), Memory.read_below h.2.2 (by omega)]
        exact Eq.symm ‹_›
      · simp [Memory.read_cons]
    · split
      · subst a
        split
        · rw [Memory.read_below h.2.2 (by omega)]
          exact Eq.symm ‹_›
        · simp [Memory.read_cons]
      · rw [Memory.read_cons, if_neg (by omega)]
        exact ih h.2.2

/-- A read of the offset just written gives the byte written. -/
theorem Memory.read_write_same {m : Memory} (h : Memory.wf m = true) (a : Nat) (b : Byte) :
    Memory.read (Memory.write m a b) a = b :=
  Memory.read_write_same_from h a b

/-- A write inside the region lists nothing outside it. -/
theorem Memory.inside_write {size : Nat} {m : Memory} (h : Memory.inside size m = true) {a : Nat} (ha : a < size)
    (b : Byte) : Memory.inside size (Memory.write m a b) = true := by
  induction m with
  | nil => by_cases hb : b = 0#8 <;> simp [Memory.write, Memory.inside, hb, ha]
  | cons c m ih =>
    obtain ⟨k, v⟩ := c
    simp only [Memory.inside, List.all_cons, Bool.and_eq_true, decide_eq_true_eq] at h ih ⊢
    unfold Memory.write
    split
    · split <;> simp [h.1, h.2, ha]
    · split
      · split <;> simp [h.2, ha]
      · simp [h.1, ih h.2]

/-- An offset outside the region reads 0. -/
theorem Memory.read_outside {size : Nat} {m : Memory} (h : Memory.inside size m = true) {a : Nat} (ha : size ≤ a) :
    Memory.read m a = 0#8 := by
  induction m with
  | nil => rfl
  | cons c m ih =>
    obtain ⟨k, v⟩ := c
    simp only [Memory.inside, List.all_cons, Bool.and_eq_true, decide_eq_true_eq] at h ih
    rw [Memory.read_cons, if_neg (by omega), ih h.2]

@[simp] theorem spanBytes_length (m : Memory) (off n : Nat) : (spanBytes m off n).length = n := by
  simp [spanBytes]

theorem spanBytes_getElem (m : Memory) (off n i : Nat) (h : i < (spanBytes m off n).length) :
    (spanBytes m off n)[i] = Memory.read m (off + i) := by
  simp [spanBytes]

end Sys2Proof.Machine
end

