-- ==== Sys2Proof/Laws/State.lean ====
section
/-! SUPPORT. One lemma per field for each update of the state by a shared operation, so that no proof unfolds a record
update. -/

namespace Sys2Proof.Machine

@[simp] theorem advance_acc (s : State) : (advance s).acc = s.acc := rfl
@[simp] theorem advance_cnt (s : State) : (advance s).cnt = s.cnt := rfl
@[simp] theorem advance_stopPending (s : State) : (advance s).stopPending = s.stopPending := rfl
@[simp] theorem advance_xs (s : State) : (advance s).xs = s.xs := rfl
@[simp] theorem advance_halt (s : State) : (advance s).halt = s.halt := rfl
@[simp] theorem advance_memLive (s : State) : (advance s).memLive = s.memLive := rfl
@[simp] theorem advance_mem (s : State) : (advance s).mem = s.mem := rfl
@[simp] theorem advance_diag (s : State) : (advance s).diag = s.diag := rfl
@[simp] theorem advance_tx (s : State) : (advance s).tx = s.tx := rfl
@[simp] theorem advance_rx (s : State) : (advance s).rx = s.rx := rfl
@[simp] theorem advance_txAnswers (s : State) : (advance s).txAnswers = s.txAnswers := rfl
@[simp] theorem advance_sched (s : State) : (advance s).sched = s.sched.tail := rfl
@[simp] theorem advance_draws (s : State) : (advance s).draws = s.draws + 1 := rfl
@[simp] theorem advance_cfg (s : State) : (advance s).cfg = s.cfg := rfl

@[simp] theorem reportOutOfRange_acc (op : AccessOp) (off n : Nat) (s : State) : (reportOutOfRange op off n s).acc = s.acc := rfl
@[simp] theorem reportOutOfRange_cnt (op : AccessOp) (off n : Nat) (s : State) : (reportOutOfRange op off n s).cnt = s.cnt := rfl
@[simp] theorem reportOutOfRange_stopPending (op : AccessOp) (off n : Nat) (s : State) : (reportOutOfRange op off n s).stopPending = s.stopPending := rfl
@[simp] theorem reportOutOfRange_xs (op : AccessOp) (off n : Nat) (s : State) : (reportOutOfRange op off n s).xs = s.xs := rfl
@[simp] theorem reportOutOfRange_halt (op : AccessOp) (off n : Nat) (s : State) : (reportOutOfRange op off n s).halt = s.halt := rfl
@[simp] theorem reportOutOfRange_memLive (op : AccessOp) (off n : Nat) (s : State) : (reportOutOfRange op off n s).memLive = s.memLive := rfl
@[simp] theorem reportOutOfRange_mem (op : AccessOp) (off n : Nat) (s : State) : (reportOutOfRange op off n s).mem = s.mem := rfl
@[simp] theorem reportOutOfRange_diag (op : AccessOp) (off n : Nat) (s : State) : (reportOutOfRange op off n s).diag = s.diag ++ [.outOfRange op off n] := rfl
@[simp] theorem reportOutOfRange_tx (op : AccessOp) (off n : Nat) (s : State) : (reportOutOfRange op off n s).tx = s.tx := rfl
@[simp] theorem reportOutOfRange_rx (op : AccessOp) (off n : Nat) (s : State) : (reportOutOfRange op off n s).rx = s.rx := rfl
@[simp] theorem reportOutOfRange_txAnswers (op : AccessOp) (off n : Nat) (s : State) : (reportOutOfRange op off n s).txAnswers = s.txAnswers := rfl
@[simp] theorem reportOutOfRange_sched (op : AccessOp) (off n : Nat) (s : State) : (reportOutOfRange op off n s).sched = s.sched := rfl
@[simp] theorem reportOutOfRange_draws (op : AccessOp) (off n : Nat) (s : State) : (reportOutOfRange op off n s).draws = s.draws := rfl
@[simp] theorem reportOutOfRange_cfg (op : AccessOp) (off n : Nat) (s : State) : (reportOutOfRange op off n s).cfg = s.cfg := rfl

@[simp] theorem raiseFatal_acc (k : Cause) (info : FatalInfo) (s : State) : (raiseFatal k info s).acc = s.acc := rfl
@[simp] theorem raiseFatal_cnt (k : Cause) (info : FatalInfo) (s : State) : (raiseFatal k info s).cnt = s.cnt := rfl
@[simp] theorem raiseFatal_stopPending (k : Cause) (info : FatalInfo) (s : State) : (raiseFatal k info s).stopPending = s.stopPending := rfl
@[simp] theorem raiseFatal_xs (k : Cause) (info : FatalInfo) (s : State) : (raiseFatal k info s).xs = s.xs := rfl
@[simp] theorem raiseFatal_halt (k : Cause) (info : FatalInfo) (s : State) : (raiseFatal k info s).halt = .fatal k := rfl
@[simp] theorem raiseFatal_memLive (k : Cause) (info : FatalInfo) (s : State) : (raiseFatal k info s).memLive = false := rfl
@[simp] theorem raiseFatal_mem (k : Cause) (info : FatalInfo) (s : State) : (raiseFatal k info s).mem = s.mem := rfl
@[simp] theorem raiseFatal_diag (k : Cause) (info : FatalInfo) (s : State) : (raiseFatal k info s).diag = s.diag ++ [.fatalReport k info] := rfl
@[simp] theorem raiseFatal_tx (k : Cause) (info : FatalInfo) (s : State) : (raiseFatal k info s).tx = s.tx := rfl
@[simp] theorem raiseFatal_rx (k : Cause) (info : FatalInfo) (s : State) : (raiseFatal k info s).rx = s.rx := rfl
@[simp] theorem raiseFatal_txAnswers (k : Cause) (info : FatalInfo) (s : State) : (raiseFatal k info s).txAnswers = s.txAnswers := rfl
@[simp] theorem raiseFatal_sched (k : Cause) (info : FatalInfo) (s : State) : (raiseFatal k info s).sched = s.sched := rfl
@[simp] theorem raiseFatal_draws (k : Cause) (info : FatalInfo) (s : State) : (raiseFatal k info s).draws = s.draws := rfl
@[simp] theorem raiseFatal_cfg (k : Cause) (info : FatalInfo) (s : State) : (raiseFatal k info s).cfg = s.cfg := rfl

@[simp] theorem protocolViolation_acc (h : Hdr) (a : Addr) (l : Len) (s : State) : (protocolViolation h a l s).acc = s.acc := rfl
@[simp] theorem protocolViolation_cnt (h : Hdr) (a : Addr) (l : Len) (s : State) : (protocolViolation h a l s).cnt = s.cnt := rfl
@[simp] theorem protocolViolation_stopPending (h : Hdr) (a : Addr) (l : Len) (s : State) : (protocolViolation h a l s).stopPending = s.stopPending := rfl
@[simp] theorem protocolViolation_xs (h : Hdr) (a : Addr) (l : Len) (s : State) : (protocolViolation h a l s).xs = s.xs := rfl
@[simp] theorem protocolViolation_halt (h : Hdr) (a : Addr) (l : Len) (s : State) : (protocolViolation h a l s).halt = .fatal .protocolViolation := rfl
@[simp] theorem protocolViolation_memLive (h : Hdr) (a : Addr) (l : Len) (s : State) : (protocolViolation h a l s).memLive = false := rfl
@[simp] theorem protocolViolation_mem (h : Hdr) (a : Addr) (l : Len) (s : State) : (protocolViolation h a l s).mem = s.mem := rfl
@[simp] theorem protocolViolation_diag (h : Hdr) (a : Addr) (l : Len) (s : State) : (protocolViolation h a l s).diag = s.diag ++ [.fatalReport .protocolViolation (.protocol h a l s.xs)] := rfl
@[simp] theorem protocolViolation_tx (h : Hdr) (a : Addr) (l : Len) (s : State) : (protocolViolation h a l s).tx = s.tx := rfl
@[simp] theorem protocolViolation_rx (h : Hdr) (a : Addr) (l : Len) (s : State) : (protocolViolation h a l s).rx = s.rx := rfl
@[simp] theorem protocolViolation_txAnswers (h : Hdr) (a : Addr) (l : Len) (s : State) : (protocolViolation h a l s).txAnswers = s.txAnswers := rfl
@[simp] theorem protocolViolation_sched (h : Hdr) (a : Addr) (l : Len) (s : State) : (protocolViolation h a l s).sched = s.sched := rfl
@[simp] theorem protocolViolation_draws (h : Hdr) (a : Addr) (l : Len) (s : State) : (protocolViolation h a l s).draws = s.draws := rfl
@[simp] theorem protocolViolation_cfg (h : Hdr) (a : Addr) (l : Len) (s : State) : (protocolViolation h a l s).cfg = s.cfg := rfl

@[simp] theorem transportFailure_acc (d : TransportInfo) (s : State) : (transportFailure d s).acc = s.acc := rfl
@[simp] theorem transportFailure_cnt (d : TransportInfo) (s : State) : (transportFailure d s).cnt = s.cnt := rfl
@[simp] theorem transportFailure_stopPending (d : TransportInfo) (s : State) : (transportFailure d s).stopPending = s.stopPending := rfl
@[simp] theorem transportFailure_xs (d : TransportInfo) (s : State) : (transportFailure d s).xs = s.xs := rfl
@[simp] theorem transportFailure_halt (d : TransportInfo) (s : State) : (transportFailure d s).halt = .fatal .transportFailure := rfl
@[simp] theorem transportFailure_memLive (d : TransportInfo) (s : State) : (transportFailure d s).memLive = false := rfl
@[simp] theorem transportFailure_mem (d : TransportInfo) (s : State) : (transportFailure d s).mem = s.mem := rfl
@[simp] theorem transportFailure_diag (d : TransportInfo) (s : State) : (transportFailure d s).diag = s.diag ++ [.fatalReport .transportFailure (.transport d)] := rfl
@[simp] theorem transportFailure_tx (d : TransportInfo) (s : State) : (transportFailure d s).tx = s.tx := rfl
@[simp] theorem transportFailure_rx (d : TransportInfo) (s : State) : (transportFailure d s).rx = s.rx := rfl
@[simp] theorem transportFailure_txAnswers (d : TransportInfo) (s : State) : (transportFailure d s).txAnswers = s.txAnswers := rfl
@[simp] theorem transportFailure_sched (d : TransportInfo) (s : State) : (transportFailure d s).sched = s.sched := rfl
@[simp] theorem transportFailure_draws (d : TransportInfo) (s : State) : (transportFailure d s).draws = s.draws := rfl
@[simp] theorem transportFailure_cfg (d : TransportInfo) (s : State) : (transportFailure d s).cfg = s.cfg := rfl

@[simp] theorem txAppend_acc (seq : List Byte) (s : State) : (txAppend seq s).acc = s.acc := rfl
@[simp] theorem txAppend_cnt (seq : List Byte) (s : State) : (txAppend seq s).cnt = s.cnt := rfl
@[simp] theorem txAppend_stopPending (seq : List Byte) (s : State) : (txAppend seq s).stopPending = s.stopPending := rfl
@[simp] theorem txAppend_xs (seq : List Byte) (s : State) : (txAppend seq s).xs = s.xs := rfl
@[simp] theorem txAppend_halt (seq : List Byte) (s : State) : (txAppend seq s).halt = s.halt := rfl
@[simp] theorem txAppend_memLive (seq : List Byte) (s : State) : (txAppend seq s).memLive = s.memLive := rfl
@[simp] theorem txAppend_mem (seq : List Byte) (s : State) : (txAppend seq s).mem = s.mem := rfl
@[simp] theorem txAppend_diag (seq : List Byte) (s : State) : (txAppend seq s).diag = s.diag := rfl
@[simp] theorem txAppend_tx (seq : List Byte) (s : State) : (txAppend seq s).tx = s.tx ++ seq := rfl
@[simp] theorem txAppend_rx (seq : List Byte) (s : State) : (txAppend seq s).rx = s.rx := rfl
@[simp] theorem txAppend_txAnswers (seq : List Byte) (s : State) : (txAppend seq s).txAnswers = s.txAnswers := rfl
@[simp] theorem txAppend_sched (seq : List Byte) (s : State) : (txAppend seq s).sched = s.sched := rfl
@[simp] theorem txAppend_draws (seq : List Byte) (s : State) : (txAppend seq s).draws = s.draws := rfl
@[simp] theorem txAppend_cfg (seq : List Byte) (s : State) : (txAppend seq s).cfg = s.cfg := rfl

@[simp] theorem dropTxAnswer_acc (s : State) : (dropTxAnswer s).acc = s.acc := rfl
@[simp] theorem dropTxAnswer_cnt (s : State) : (dropTxAnswer s).cnt = s.cnt := rfl
@[simp] theorem dropTxAnswer_stopPending (s : State) : (dropTxAnswer s).stopPending = s.stopPending := rfl
@[simp] theorem dropTxAnswer_xs (s : State) : (dropTxAnswer s).xs = s.xs := rfl
@[simp] theorem dropTxAnswer_halt (s : State) : (dropTxAnswer s).halt = s.halt := rfl
@[simp] theorem dropTxAnswer_memLive (s : State) : (dropTxAnswer s).memLive = s.memLive := rfl
@[simp] theorem dropTxAnswer_mem (s : State) : (dropTxAnswer s).mem = s.mem := rfl
@[simp] theorem dropTxAnswer_diag (s : State) : (dropTxAnswer s).diag = s.diag := rfl
@[simp] theorem dropTxAnswer_tx (s : State) : (dropTxAnswer s).tx = s.tx := rfl
@[simp] theorem dropTxAnswer_rx (s : State) : (dropTxAnswer s).rx = s.rx := rfl
@[simp] theorem dropTxAnswer_txAnswers (s : State) : (dropTxAnswer s).txAnswers = s.txAnswers.tail := rfl
@[simp] theorem dropTxAnswer_sched (s : State) : (dropTxAnswer s).sched = s.sched := rfl
@[simp] theorem dropTxAnswer_draws (s : State) : (dropTxAnswer s).draws = s.draws := rfl
@[simp] theorem dropTxAnswer_cfg (s : State) : (dropTxAnswer s).cfg = s.cfg := rfl

@[simp] theorem accumulate_acc (b : Byte) (s : State) : (accumulate b s).acc = shiftIn s.acc b := rfl
@[simp] theorem accumulate_cnt (b : Byte) (s : State) : (accumulate b s).cnt = s.cnt + 1 := rfl
@[simp] theorem accumulate_stopPending (b : Byte) (s : State) : (accumulate b s).stopPending = stopNotice b s := rfl
@[simp] theorem accumulate_xs (b : Byte) (s : State) : (accumulate b s).xs = s.xs := rfl
@[simp] theorem accumulate_halt (b : Byte) (s : State) : (accumulate b s).halt = s.halt := rfl
@[simp] theorem accumulate_memLive (b : Byte) (s : State) : (accumulate b s).memLive = s.memLive := rfl
@[simp] theorem accumulate_mem (b : Byte) (s : State) : (accumulate b s).mem = s.mem := rfl
@[simp] theorem accumulate_diag (b : Byte) (s : State) : (accumulate b s).diag = s.diag := rfl
@[simp] theorem accumulate_tx (b : Byte) (s : State) : (accumulate b s).tx = s.tx := rfl
@[simp] theorem accumulate_rx (b : Byte) (s : State) : (accumulate b s).rx = s.rx := rfl
@[simp] theorem accumulate_txAnswers (b : Byte) (s : State) : (accumulate b s).txAnswers = s.txAnswers := rfl
@[simp] theorem accumulate_sched (b : Byte) (s : State) : (accumulate b s).sched = s.sched := rfl
@[simp] theorem accumulate_draws (b : Byte) (s : State) : (accumulate b s).draws = s.draws := rfl
@[simp] theorem accumulate_cfg (b : Byte) (s : State) : (accumulate b s).cfg = s.cfg := rfl

@[simp] theorem clearAcc_acc (s : State) : (clearAcc s).acc = 0#48 := rfl
@[simp] theorem clearAcc_cnt (s : State) : (clearAcc s).cnt = 0 := rfl
@[simp] theorem clearAcc_stopPending (s : State) : (clearAcc s).stopPending = s.stopPending := rfl
@[simp] theorem clearAcc_xs (s : State) : (clearAcc s).xs = s.xs := rfl
@[simp] theorem clearAcc_halt (s : State) : (clearAcc s).halt = s.halt := rfl
@[simp] theorem clearAcc_memLive (s : State) : (clearAcc s).memLive = s.memLive := rfl
@[simp] theorem clearAcc_mem (s : State) : (clearAcc s).mem = s.mem := rfl
@[simp] theorem clearAcc_diag (s : State) : (clearAcc s).diag = s.diag := rfl
@[simp] theorem clearAcc_tx (s : State) : (clearAcc s).tx = s.tx := rfl
@[simp] theorem clearAcc_rx (s : State) : (clearAcc s).rx = s.rx := rfl
@[simp] theorem clearAcc_txAnswers (s : State) : (clearAcc s).txAnswers = s.txAnswers := rfl
@[simp] theorem clearAcc_sched (s : State) : (clearAcc s).sched = s.sched := rfl
@[simp] theorem clearAcc_draws (s : State) : (clearAcc s).draws = s.draws := rfl
@[simp] theorem clearAcc_cfg (s : State) : (clearAcc s).cfg = s.cfg := rfl

@[simp] theorem hostOffer_acc (item : RxItem) (s : State) : (hostOffer item s).acc = s.acc := rfl
@[simp] theorem hostOffer_cnt (item : RxItem) (s : State) : (hostOffer item s).cnt = s.cnt := rfl
@[simp] theorem hostOffer_stopPending (item : RxItem) (s : State) : (hostOffer item s).stopPending = s.stopPending := rfl
@[simp] theorem hostOffer_xs (item : RxItem) (s : State) : (hostOffer item s).xs = s.xs := rfl
@[simp] theorem hostOffer_halt (item : RxItem) (s : State) : (hostOffer item s).halt = s.halt := rfl
@[simp] theorem hostOffer_memLive (item : RxItem) (s : State) : (hostOffer item s).memLive = s.memLive := rfl
@[simp] theorem hostOffer_mem (item : RxItem) (s : State) : (hostOffer item s).mem = s.mem := rfl
@[simp] theorem hostOffer_diag (item : RxItem) (s : State) : (hostOffer item s).diag = s.diag := rfl
@[simp] theorem hostOffer_tx (item : RxItem) (s : State) : (hostOffer item s).tx = s.tx := rfl
@[simp] theorem hostOffer_rx (item : RxItem) (s : State) : (hostOffer item s).rx = s.rx ++ [item] := rfl
@[simp] theorem hostOffer_txAnswers (item : RxItem) (s : State) : (hostOffer item s).txAnswers = s.txAnswers := rfl
@[simp] theorem hostOffer_sched (item : RxItem) (s : State) : (hostOffer item s).sched = s.sched := rfl
@[simp] theorem hostOffer_draws (item : RxItem) (s : State) : (hostOffer item s).draws = s.draws := rfl
@[simp] theorem hostOffer_cfg (item : RxItem) (s : State) : (hostOffer item s).cfg = s.cfg := rfl

@[simp] theorem hostAnswer_acc (r : Config.TxAnswer) (s : State) : (hostAnswer r s).acc = s.acc := rfl
@[simp] theorem hostAnswer_cnt (r : Config.TxAnswer) (s : State) : (hostAnswer r s).cnt = s.cnt := rfl
@[simp] theorem hostAnswer_stopPending (r : Config.TxAnswer) (s : State) : (hostAnswer r s).stopPending = s.stopPending := rfl
@[simp] theorem hostAnswer_xs (r : Config.TxAnswer) (s : State) : (hostAnswer r s).xs = s.xs := rfl
@[simp] theorem hostAnswer_halt (r : Config.TxAnswer) (s : State) : (hostAnswer r s).halt = s.halt := rfl
@[simp] theorem hostAnswer_memLive (r : Config.TxAnswer) (s : State) : (hostAnswer r s).memLive = s.memLive := rfl
@[simp] theorem hostAnswer_mem (r : Config.TxAnswer) (s : State) : (hostAnswer r s).mem = s.mem := rfl
@[simp] theorem hostAnswer_diag (r : Config.TxAnswer) (s : State) : (hostAnswer r s).diag = s.diag := rfl
@[simp] theorem hostAnswer_tx (r : Config.TxAnswer) (s : State) : (hostAnswer r s).tx = s.tx := rfl
@[simp] theorem hostAnswer_rx (r : Config.TxAnswer) (s : State) : (hostAnswer r s).rx = s.rx := rfl
@[simp] theorem hostAnswer_txAnswers (r : Config.TxAnswer) (s : State) : (hostAnswer r s).txAnswers = s.txAnswers ++ [r] := rfl
@[simp] theorem hostAnswer_sched (r : Config.TxAnswer) (s : State) : (hostAnswer r s).sched = s.sched := rfl
@[simp] theorem hostAnswer_draws (r : Config.TxAnswer) (s : State) : (hostAnswer r s).draws = s.draws := rfl
@[simp] theorem hostAnswer_cfg (r : Config.TxAnswer) (s : State) : (hostAnswer r s).cfg = s.cfg := rfl

@[simp] theorem hostSchedule_acc (a : Config.Agent) (s : State) : (hostSchedule a s).acc = s.acc := rfl
@[simp] theorem hostSchedule_cnt (a : Config.Agent) (s : State) : (hostSchedule a s).cnt = s.cnt := rfl
@[simp] theorem hostSchedule_stopPending (a : Config.Agent) (s : State) : (hostSchedule a s).stopPending = s.stopPending := rfl
@[simp] theorem hostSchedule_xs (a : Config.Agent) (s : State) : (hostSchedule a s).xs = s.xs := rfl
@[simp] theorem hostSchedule_halt (a : Config.Agent) (s : State) : (hostSchedule a s).halt = s.halt := rfl
@[simp] theorem hostSchedule_memLive (a : Config.Agent) (s : State) : (hostSchedule a s).memLive = s.memLive := rfl
@[simp] theorem hostSchedule_mem (a : Config.Agent) (s : State) : (hostSchedule a s).mem = s.mem := rfl
@[simp] theorem hostSchedule_diag (a : Config.Agent) (s : State) : (hostSchedule a s).diag = s.diag := rfl
@[simp] theorem hostSchedule_tx (a : Config.Agent) (s : State) : (hostSchedule a s).tx = s.tx := rfl
@[simp] theorem hostSchedule_rx (a : Config.Agent) (s : State) : (hostSchedule a s).rx = s.rx := rfl
@[simp] theorem hostSchedule_txAnswers (a : Config.Agent) (s : State) : (hostSchedule a s).txAnswers = s.txAnswers := rfl
@[simp] theorem hostSchedule_sched (a : Config.Agent) (s : State) : (hostSchedule a s).sched = s.sched ++ [a] := rfl
@[simp] theorem hostSchedule_draws (a : Config.Agent) (s : State) : (hostSchedule a s).draws = s.draws := rfl
@[simp] theorem hostSchedule_cfg (a : Config.Agent) (s : State) : (hostSchedule a s).cfg = s.cfg := rfl

end Sys2Proof.Machine
end

