-- ==== Sys2Proof/Laws/Ops.lean ====
section
/-! SUPPORT. For each shared operation one lemma that says once everything it can do. -/

namespace Sys2Proof.Machine

theorem lenCount_toNat (l : Len) : (lenCount l).toNat = l.toNat := by
  have := l.isLt
  simp [lenCount]
  omega

/-- The count of a transfer does not wrap while it is below what is expected (10_state.md R21). -/
theorem nextWritten_toNat {expected written : Count} (h : written.toNat < expected.toNat) :
    (nextWritten written).toNat = written.toNat + 1 := by
  have := expected.isLt
  simp [nextWritten]
  omega

theorem inRange_iff (s : State) (off n : Nat) : inRange s off n = true ↔ off + n ≤ s.cfg.memSize := by
  simp [inRange]

/-- Everything a successful `memWrite` can do (20_memory.md R44). -/
theorem memWrite_ok {off : Nat} {b : Byte} {s s' : State} (h : memWrite off b s = .ok s') :
    s.memLive = true ∧
      ((off + 1 ≤ s.cfg.memSize ∧ s' = { s with mem := Memory.write s.mem off b }) ∨
       (¬ off + 1 ≤ s.cfg.memSize ∧ s' = reportOutOfRange .write off 1 s)) := by
  unfold memWrite at h
  split at h
  · refine ⟨‹_›, ?_⟩
    split at h <;> rename_i hr
    · exact .inl ⟨(inRange_iff ..).1 hr, by cases h; rfl⟩
    · exact .inr ⟨fun hc => hr ((inRange_iff ..).2 hc), by cases h; rfl⟩
  · cases h

theorem memWrite_inRange {off : Nat} {b : Byte} {s : State} (hl : s.memLive = true) (hr : off + 1 ≤ s.cfg.memSize) :
    memWrite off b s = .ok { s with mem := Memory.write s.mem off b } := by
  simp [memWrite, hl, inRange, hr]

theorem memWrite_outOfRange {off : Nat} {b : Byte} {s : State} (hl : s.memLive = true)
    (hr : ¬ off + 1 ≤ s.cfg.memSize) : memWrite off b s = .ok (reportOutOfRange .write off 1 s) := by
  simp [memWrite, hl, inRange, hr]

theorem memRead_inRange {off n : Nat} {s : State} (hl : s.memLive = true) (hr : off + n ≤ s.cfg.memSize) :
    memRead off n s = .ok (spanBytes s.mem off n, s) := by
  simp [memRead, hl, inRange, hr]

theorem memRead_outOfRange {off n : Nat} {s : State} (hl : s.memLive = true) (hr : ¬ off + n ≤ s.cfg.memSize) :
    memRead off n s = .ok ([], reportOutOfRange .read off n s) := by
  simp [memRead, hl, inRange, hr]

/-- Everything a successful `memRead` can do (20_memory.md R45). -/
theorem memRead_ok {off n : Nat} {s s' : State} {seq : List Byte} (h : memRead off n s = .ok (seq, s')) :
    s.memLive = true ∧
      ((off + n ≤ s.cfg.memSize ∧ seq = spanBytes s.mem off n ∧ s' = s) ∨
       (¬ off + n ≤ s.cfg.memSize ∧ seq = [] ∧ s' = reportOutOfRange .read off n s)) := by
  unfold memRead at h
  split at h
  · refine ⟨‹_›, ?_⟩
    split at h <;> rename_i hr
    · exact .inl ⟨(inRange_iff ..).1 hr, by cases h; exact ⟨rfl, rfl⟩⟩
    · exact .inr ⟨fun hc => hr ((inRange_iff ..).2 hc), by cases h; exact ⟨rfl, rfl⟩⟩
  · cases h

/-- Everything the write of a reply can do (42_sender.md R93). -/
theorem emitReply_cases (base : Addr) (length : Count) (seq : List Byte) (s : State) :
    (txAnswer s = .ok ∧ emitReply base length seq s =
      { s with tx := s.tx ++ seq, txAnswers := s.txAnswers.tail, xs := .reading base length true }) ∨
    (∃ k, txAnswer s = .fail k ∧ emitReply base length seq s =
      { s with tx := s.tx ++ seq.take k, txAnswers := s.txAnswers.tail, halt := .fatal .transportFailure,
               memLive := false,
               diag := s.diag ++ [.fatalReport .transportFailure (.transport .txFail)] }) := by
  unfold emitReply
  cases h : txAnswer s with
  | ok => exact .inl ⟨rfl, rfl⟩
  | fail k => exact .inr ⟨k, rfl, rfl⟩

/-- Everything the emit step can do, when it answers a next state (42_sender.md R93). -/
theorem sndEmit_cases {base : Addr} {length : Count} {s t : State} (h : sndEmit base length s = .next t) :
    s.memLive = true ∧
      ((baseOffset base + length.toNat ≤ s.cfg.memSize ∧ length.toNat = 0 ∧
          t = { s with xs := .reading base length true }) ∨
       (¬ baseOffset base + length.toNat ≤ s.cfg.memSize ∧
          t = { s with xs := .reading base length true,
                       diag := s.diag ++ [.outOfRange .read (baseOffset base) length.toNat] }) ∨
       (baseOffset base + length.toNat ≤ s.cfg.memSize ∧ 0 < length.toNat ∧
          t = emitReply base length (spanBytes s.mem (baseOffset base) length.toNat) s)) := by
  unfold sndEmit at h
  split at h
  · rename_i s' hm
    obtain ⟨hl, ⟨hr, hs, rfl⟩ | ⟨hr, hs, rfl⟩⟩ := memRead_ok hm
    · refine ⟨hl, .inl ⟨hr, ?_, by cases h; rfl⟩⟩
      have := congrArg List.length hs
      simpa using this.symm
    · exact ⟨hl, .inr (.inl ⟨hr, by cases h; rfl⟩)⟩
  · rename_i b seq s' hm
    obtain ⟨hl, ⟨hr, hs, rfl⟩ | ⟨hr, hs, rfl⟩⟩ := memRead_ok hm
    · refine ⟨hl, .inr (.inr ⟨hr, ?_, by cases h; rw [hs]⟩)⟩
      have := congrArg List.length hs
      simp only [List.length_cons, spanBytes_length] at this
      omega
    · cases hs
  · cases h

/-- The sender never stops where the region is live. -/
theorem sndEmit_next (base : Addr) (length : Count) {s : State} (hl : s.memLive = true) :
    ∃ t, sndEmit base length s = .next t := by
  unfold sndEmit
  split
  · exact ⟨_, rfl⟩
  · exact ⟨_, rfl⟩
  · rename_i e hm
    simp [memRead, hl] at hm

end Sys2Proof.Machine
end

