-- ==== Sys2Proof/Laws/PerInstr.lean ====
section
/-! SUPPORT. Facts about every form of the wire protocol as syntax, one lemma per constructor of `Instr`. -/

namespace Sys2Proof.Laws

/-- The number of bytes a form takes on the stream: six or one (30_encoding.md §1). -/
def EncodeLength.Statement (i : Instr) : Prop :=
  (encode i).length = if (encodeWord i).isSome then 6 else 1

theorem EncodeLength.read (a : Addr) (l : Len) : EncodeLength.Statement (.read a l) := rfl
theorem EncodeLength.write (a : Addr) (l : Len) : EncodeLength.Statement (.write a l) := rfl
theorem EncodeLength.stop (x : BitVec 46) : EncodeLength.Statement (.stop x) := rfl
theorem EncodeLength.rsvd00 (x : BitVec 46) : EncodeLength.Statement (.rsvd00 x) := rfl
theorem EncodeLength.fill (b : Byte) : EncodeLength.Statement (.fill b) := rfl
theorem EncodeLength.data (b : Byte) : EncodeLength.Statement (.data b) := rfl

end Sys2Proof.Laws
end

