-- ==== Sys2Proof/Laws/Step.lean ====
section
/-! SUPPORT. What the scheduler and one step of the inbound agent can do, said once. -/

namespace Sys2Proof.Machine

theorem inEnabled_iff (s : State) : inEnabled s = true ↔ s.halt = .none ∧ ∃ item rest, s.rx = item :: rest := by
  simp only [inEnabled, Bool.and_eq_true, decide_eq_true_eq, Bool.not_eq_true']
  cases s.rx <;> simp

theorem sndEnabled_iff (s : State) :
    sndEnabled s = true ↔ s.halt = .none ∧ ∃ base length drained, s.xs = .reading base length drained := by
  simp only [sndEnabled, Bool.and_eq_true, decide_eq_true_eq]
  cases s.xs <;> simp [TransferState.kind]

theorem nextAgent_inbound {s : State} (h : nextAgent s = some .inbound) :
    s.halt = .none ∧ ∃ item rest, s.rx = item :: rest := by
  rw [← inEnabled_iff]
  unfold nextAgent at h
  split at h <;> simp_all

theorem nextAgent_sender {s : State} (h : nextAgent s = some .sender) :
    s.halt = .none ∧ ∃ base length drained, s.xs = .reading base length drained := by
  rw [← sndEnabled_iff]
  unfold nextAgent at h
  split at h <;> simp_all

/-- Everything a step can be (00_scope.md R11; 60_exceptions.md R118). -/
theorem step_cases (s : State) :
    (nextAgent s = none ∧ step s = .next s) ∨
    (∃ item rest, nextAgent s = some .inbound ∧ s.halt = .none ∧ s.rx = item :: rest ∧
      step s = takeItem item { advance s with rx := rest }) ∨
    (∃ base length drained, nextAgent s = some .sender ∧ s.halt = .none ∧ s.xs = .reading base length drained ∧
      step s = if drained then sndClear (advance s) else sndEmit base length (advance s)) := by
  cases h : nextAgent s with
  | none => exact .inl ⟨rfl, by simp [step, h]⟩
  | some a =>
    cases a with
    | inbound =>
      obtain ⟨hh, item, rest, hr⟩ := nextAgent_inbound h
      exact .inr (.inl ⟨item, rest, rfl, hh, hr, by simp [step, h, inItem, hr]⟩)
    | sender =>
      obtain ⟨hh, base, length, drained, hx⟩ := nextAgent_sender h
      refine .inr (.inr ⟨base, length, drained, rfl, hh, hx, ?_⟩)
      cases drained <;> simp [step, h, sndStep, hx]

/-- Outside a Write transfer a byte goes to the decoder (40_decoder.md R71). -/
theorem takeByte_decoder {b : Byte} {s : State} (h : s.xs.kind ≠ .writing) : takeByte b s = decodeByte b s := by
  unfold takeByte
  split
  · rename_i hx
    simp [hx, TransferState.kind] at h
  · rfl
  · rfl

/-- During a Write transfer every byte is payload (41_transfer.md R83). -/
theorem takeByte_payload {b : Byte} {s : State} (h : s.xs.kind = .writing) : takeByte b s = execData b s := by
  unfold takeByte
  split
  · rfl
  · rename_i hx
    simp [hx, TransferState.kind] at h
  · rename_i hx
    simp [hx, TransferState.kind] at h

/-- Everything the decoder can do with a byte (40_decoder.md R72). -/
theorem decodeByte_cases (b : Byte) (s : State) :
    (s.cnt = 0 ∧ byteTag b = 0b00#2 ∧ decodeByte b s = .next s) ∨
    (¬ (s.cnt = 0 ∧ byteTag b = 0b00#2) ∧ s.cnt ≠ 5 ∧ decodeByte b s = .next (accumulate b s)) ∨
    (¬ (s.cnt = 0 ∧ byteTag b = 0b00#2) ∧ s.cnt = 5 ∧
      decodeByte b s = exec (decodeWord (shiftIn s.acc b)) (clearAcc (accumulate b s))) := by
  by_cases h0 : s.cnt = 0 ∧ byteTag b = 0b00#2
  · exact .inl ⟨h0.1, h0.2, by simp [decodeByte, h0, exec, execFill]⟩
  · by_cases h5 : s.cnt = 5
    · exact .inr (.inr ⟨h0, h5, by simp [decodeByte, completeWord, h5]⟩)
    · exact .inr (.inl ⟨h0, h5, by rw [decodeByte, if_neg h0]; simp [completeWord, h5]⟩)

/-- A payload byte inside the region (41_transfer.md R88). -/
theorem execData_inRange {b : Byte} {s : State} {base : Addr} {expected written : Count}
    (hx : s.xs = .writing base expected written) (hl : s.memLive = true)
    (hr : payloadOffset base written + 1 ≤ s.cfg.memSize) :
    execData b s = .next { s with mem := Memory.write s.mem (payloadOffset base written) b,
                                  xs := afterPayload base expected written } := by
  simp [execData, hx, memWrite_inRange hl hr]

/-- A payload byte outside the region (41_transfer.md R88). -/
theorem execData_outOfRange {b : Byte} {s : State} {base : Addr} {expected written : Count}
    (hx : s.xs = .writing base expected written) (hl : s.memLive = true)
    (hr : ¬ payloadOffset base written + 1 ≤ s.cfg.memSize) :
    execData b s = .next { s with diag := s.diag ++ [.outOfRange .write (payloadOffset base written) 1],
                                  xs := afterPayload base expected written } := by
  simp [execData, hx, memWrite_outOfRange hl hr, reportOutOfRange]

/-- Everything a payload byte can do, when it answers a next state (41_transfer.md R88). -/
theorem execData_cases {b : Byte} {s t : State} (h : execData b s = .next t) :
    ∃ base expected written, s.xs = .writing base expected written ∧ s.memLive = true ∧
      ((payloadOffset base written + 1 ≤ s.cfg.memSize ∧
          t = { s with mem := Memory.write s.mem (payloadOffset base written) b,
                       xs := afterPayload base expected written }) ∨
       (¬ payloadOffset base written + 1 ≤ s.cfg.memSize ∧
          t = { s with diag := s.diag ++ [.outOfRange .write (payloadOffset base written) 1],
                       xs := afterPayload base expected written })) := by
  unfold execData at h
  split at h
  · rename_i base expected written hx
    refine ⟨base, expected, written, hx, ?_⟩
    split at h
    · rename_i s' hm
      obtain ⟨hl, ⟨hr, rfl⟩ | ⟨hr, rfl⟩⟩ := memWrite_ok hm
      · exact ⟨hl, .inl ⟨hr, by cases h; rfl⟩⟩
      · exact ⟨hl, .inr ⟨hr, by cases h; rfl⟩⟩
    · cases h
  · cases h
  · cases h

end Sys2Proof.Machine
end

