-- ==== Sys2Proof/Laws/Transition.lean ====
section
/-! SUPPORT. The inversion of one step: every way in which a step answers a next state, with that state written out. Claims
about every step are case analyses of `Transition`. -/

namespace Sys2Proof.Machine

/-- A step of `IN` on a byte is `takeByte` at the state without that byte. -/
theorem step_byte {b : Byte} {rest : List RxItem} {s : State} (h : ByteIsNext b rest s) :
    step s = takeByte b (taken rest s) := by
  obtain ⟨h1, h2⟩ := h
  rcases step_cases s with ⟨hn, _⟩ | ⟨item, rest', hn, _, hr, he⟩ | ⟨_, _, _, hn, _⟩
  · rw [h1] at hn
    cases hn
  · rw [h2] at hr
    cases hr
    exact he
  · rw [h1] at hn
    cases hn

theorem step_payload {b : Byte} {rest : List RxItem} {s : State} (h : ByteIsNext b rest s)
    (hx : s.xs.kind = .writing) : step s = execData b (taken rest s) := by
  rw [step_byte h]
  exact takeByte_payload hx

theorem step_decoder {b : Byte} {rest : List RxItem} {s : State} (h : ByteIsNext b rest s)
    (hx : s.xs.kind ≠ .writing) : step s = decodeByte b (taken rest s) := by
  rw [step_byte h]
  exact takeByte_decoder hx

/-- The state in which a completed word runs: its last byte taken, the accumulator reset (40_decoder.md R76). -/
def atWord (rest : List RxItem) (s : State) : State := { taken rest s with acc := 0#48, cnt := 0 }

/-- What a completed word with header `h` does to the state it runs in (41_transfer.md R82). -/
inductive WordEffect (w : Word48) (u : State) : State → Prop where
  | read (hh : wordHdr w = 0b01#2) (hx : u.xs = .idle) :
      WordEffect w u { u with xs := .reading (wordAddr w) (lenCount (wordLen w)) false }
  | readViolation (hh : wordHdr w = 0b01#2) (hx : u.xs ≠ .idle) :
      WordEffect w u (protocolViolation 0b01#2 (wordAddr w) (wordLen w) u)
  | write (hh : wordHdr w = 0b10#2) (hx : u.xs = .idle) (hl : wordLen w ≠ 0#14) :
      WordEffect w u { u with xs := .writing (wordAddr w) (lenCount (wordLen w)) 0#16 }
  | writeNothing (hh : wordHdr w = 0b10#2) (hx : u.xs = .idle) (hl : wordLen w = 0#14) : WordEffect w u u
  | writeViolation (hh : wordHdr w = 0b10#2) (hx : u.xs ≠ .idle) :
      WordEffect w u (protocolViolation 0b10#2 (wordAddr w) (wordLen w) u)
  | stop (hh : wordHdr w = 0b11#2) : WordEffect w u { u with halt := .stopped, memLive := false }
  | rsvd00 (hh : wordHdr w = 0b00#2) : WordEffect w u u

theorem exec_decodeWord (w : Word48) (u : State) : ∃ t, exec (decodeWord w) u = .next t ∧ WordEffect w u t := by
  rcases decodeWord_cases w with ⟨h, e⟩ | ⟨h, e⟩ | ⟨h, e⟩ | ⟨h, e⟩ <;> rw [e]
  · by_cases hx : u.xs = .idle
    · exact ⟨_, by simp [exec, execRead, hx], .read h hx⟩
    · exact ⟨_, by simp [exec, execRead, hx], .readViolation h hx⟩
  · by_cases hx : u.xs = .idle
    · by_cases hl : wordLen w = 0#14
      · exact ⟨_, by simp [exec, execWrite, hx, hl], .writeNothing h hx hl⟩
      · exact ⟨_, by simp [exec, execWrite, hx, hl], .write h hx hl⟩
    · exact ⟨_, by simp [exec, execWrite, hx], .writeViolation h hx⟩
  · exact ⟨_, rfl, .stop h⟩
  · exact ⟨_, rfl, .rsvd00 h⟩

/-- The ways a step answers a next state. -/
inductive Transition (s : State) : State → Prop where
  | waits (hn : nextAgent s = none) : Transition s s
  | eos (rest : List RxItem) (hn : nextAgent s = some .inbound) (hh : s.halt = .none) (hr : s.rx = .eos :: rest) :
      Transition s (transportFailure .rxEos (taken rest s))
  | rxFail (rest : List RxItem) (hn : nextAgent s = some .inbound) (hh : s.halt = .none) (hr : s.rx = .fail :: rest) :
      Transition s (transportFailure .rxFail (taken rest s))
  | filler (b : Byte) (rest : List RxItem) (hn : ByteIsNext b rest s) (hh : s.halt = .none)
      (hx : s.xs.kind ≠ .writing) (hc : s.cnt = 0) (hb : byteTag b = 0b00#2) : Transition s (taken rest s)
  | accumulates (b : Byte) (rest : List RxItem) (hn : ByteIsNext b rest s) (hh : s.halt = .none)
      (hx : s.xs.kind ≠ .writing) (hf : ¬ (s.cnt = 0 ∧ byteTag b = 0b00#2)) (hc : s.cnt ≠ 5) :
      Transition s (accumulate b (taken rest s))
  | word (b : Byte) (rest : List RxItem) (t : State) (hn : ByteIsNext b rest s) (hh : s.halt = .none)
      (hx : s.xs.kind ≠ .writing) (hc : s.cnt = 5) (he : WordEffect (shiftIn s.acc b) (atWord rest s) t) :
      Transition s t
  | stores (b : Byte) (rest : List RxItem) (base : Addr) (expected written : Count) (hn : ByteIsNext b rest s)
      (hh : s.halt = .none) (hx : s.xs = .writing base expected written) (hl : s.memLive = true)
      (hr : payloadOffset base written + 1 ≤ s.cfg.memSize) :
      Transition s { taken rest s with mem := Memory.write s.mem (payloadOffset base written) b,
                                       xs := afterPayload base expected written }
  | discards (b : Byte) (rest : List RxItem) (base : Addr) (expected written : Count) (hn : ByteIsNext b rest s)
      (hh : s.halt = .none) (hx : s.xs = .writing base expected written) (hl : s.memLive = true)
      (hr : ¬ payloadOffset base written + 1 ≤ s.cfg.memSize) :
      Transition s { taken rest s with diag := s.diag ++ [.outOfRange .write (payloadOffset base written) 1],
                                       xs := afterPayload base expected written }
  | emitsNothing (base : Addr) (length : Count) (hn : nextAgent s = some .sender) (hh : s.halt = .none)
      (hx : s.xs = .reading base length false) (hl : s.memLive = true)
      (hr : baseOffset base + length.toNat ≤ s.cfg.memSize) (h0 : length.toNat = 0) :
      Transition s { advance s with xs := .reading base length true }
  | emitsOutOfRange (base : Addr) (length : Count) (hn : nextAgent s = some .sender) (hh : s.halt = .none)
      (hx : s.xs = .reading base length false) (hl : s.memLive = true)
      (hr : ¬ baseOffset base + length.toNat ≤ s.cfg.memSize) :
      Transition s { advance s with xs := .reading base length true,
                                    diag := s.diag ++ [.outOfRange .read (baseOffset base) length.toNat] }
  | emits (base : Addr) (length : Count) (hn : nextAgent s = some .sender) (hh : s.halt = .none)
      (hx : s.xs = .reading base length false) (hl : s.memLive = true)
      (hr : baseOffset base + length.toNat ≤ s.cfg.memSize) (h0 : 0 < length.toNat) (ha : txAnswer (advance s) = .ok) :
      Transition s { advance s with tx := s.tx ++ spanBytes s.mem (baseOffset base) length.toNat,
                                    txAnswers := s.txAnswers.tail, xs := .reading base length true }
  | emitFails (base : Addr) (length : Count) (k : Nat) (hn : nextAgent s = some .sender) (hh : s.halt = .none)
      (hx : s.xs = .reading base length false) (hl : s.memLive = true)
      (hr : baseOffset base + length.toNat ≤ s.cfg.memSize) (h0 : 0 < length.toNat)
      (ha : txAnswer (advance s) = .fail k) :
      Transition s { advance s with tx := s.tx ++ (spanBytes s.mem (baseOffset base) length.toNat).take k,
                                    txAnswers := s.txAnswers.tail, halt := .fatal .transportFailure, memLive := false,
                                    diag := s.diag ++ [.fatalReport .transportFailure (.transport .txFail)] }
  | clears (base : Addr) (length : Count) (hn : nextAgent s = some .sender) (hh : s.halt = .none)
      (hx : s.xs = .reading base length true) : Transition s { advance s with xs := .idle }

/-- Every next state of a step is one of these. -/
theorem step_transition {s t : State} (h : step s = .next t) : Transition s t := by
  rcases step_cases s with ⟨hn, he⟩ | ⟨item, rest, hn, hh, hr, he⟩ | ⟨base, length, drained, hn, hh, hx, he⟩
  · rw [he] at h
    cases h
    exact .waits hn
  · cases item with
    | byte b =>
      have hb : ByteIsNext b rest s := ⟨hn, hr⟩
      by_cases hw : s.xs.kind = .writing
      · rw [step_payload hb hw] at h
        obtain ⟨base, expected, written, hx, hl, ⟨hm, rfl⟩ | ⟨hm, rfl⟩⟩ := execData_cases h
        · exact .stores b rest base expected written hb hh hx hl hm
        · exact .discards b rest base expected written hb hh hx hl hm
      · rw [step_decoder hb hw] at h
        rcases decodeByte_cases b (taken rest s) with ⟨hc, ht, hd⟩ | ⟨hf, hc, hd⟩ | ⟨hf, hc, hd⟩
        · rw [hd] at h
          cases h
          exact .filler b rest hb hh hw hc ht
        · rw [hd] at h
          cases h
          exact .accumulates b rest hb hh hw hf hc
        · rw [hd] at h
          obtain ⟨t', ht, hwe⟩ := exec_decodeWord (shiftIn s.acc b) (clearAcc (accumulate b (taken rest s)))
          have hcl : clearAcc (accumulate b (taken rest s)) = atWord rest s := by
            have : s.cnt = 5 := hc
            simp [clearAcc, accumulate, atWord, taken, stopNotice, this]
          rw [hcl] at hwe
          change exec (decodeWord (shiftIn s.acc b)) _ = _ at h
          rw [ht] at h
          cases h
          exact .word b rest _ hb hh hw hc hwe
    | eos =>
      rw [he] at h
      cases h
      exact .eos rest hn hh hr
    | fail =>
      rw [he] at h
      cases h
      exact .rxFail rest hn hh hr
  · rw [he] at h
    cases drained with
    | true =>
      cases h
      exact .clears base length hn hh hx
    | false =>
      obtain ⟨hl, ⟨hr, h0, rfl⟩ | ⟨hr, rfl⟩ | ⟨hr, h0, rfl⟩⟩ := sndEmit_cases h
      · exact .emitsNothing base length hn hh hx hl hr h0
      · exact .emitsOutOfRange base length hn hh hx hl hr
      · rcases emitReply_cases base length (spanBytes s.mem (baseOffset base) length.toNat) (advance s) with
          ⟨ha, e⟩ | ⟨k, ha, e⟩ <;> rw [advance_mem, e]
        · exact .emits base length hn hh hx hl hr h0 ha
        · exact .emitFails base length k hn hh hx hl hr h0 ha

/-- Where the region is live while communication is, a step never faults and never refuses (20_memory.md R42). -/
theorem step_next (s : State) (hl : s.halt = .none → s.memLive = true) : ∃ t, step s = .next t := by
  rcases step_cases s with ⟨_, he⟩ | ⟨item, rest, hn, hh, hr, he⟩ | ⟨base, length, drained, _, hh, _, he⟩
  · exact ⟨_, he⟩
  · cases item with
    | byte b =>
      have hb : ByteIsNext b rest s := ⟨hn, hr⟩
      by_cases hw : s.xs.kind = .writing
      · rw [step_payload hb hw]
        cases hx : s.xs with
        | writing base expected written =>
          have hlive : (taken rest s).memLive = true := hl hh
          exact ⟨_, by simp [execData, taken, hx, memWrite, hl hh]; rfl⟩
        | idle => simp [hx, TransferState.kind] at hw
        | reading base length drained => simp [hx, TransferState.kind] at hw
      · rw [step_decoder hb hw]
        rcases decodeByte_cases b (taken rest s) with ⟨_, _, hd⟩ | ⟨_, _, hd⟩ | ⟨_, _, hd⟩
        · exact ⟨_, hd⟩
        · exact ⟨_, hd⟩
        · obtain ⟨t, ht, _⟩ := exec_decodeWord (shiftIn (taken rest s).acc b) (clearAcc (accumulate b (taken rest s)))
          exact ⟨t, hd.trans ht⟩
    | eos => exact ⟨_, he⟩
    | fail => exact ⟨_, he⟩
  · rw [he]
    cases drained with
    | true => exact ⟨_, rfl⟩
    | false => exact sndEmit_next base length (hl hh)

end Sys2Proof.Machine
end

