-- ==== Sys2Proof/Laws/Run.lean ====
section
/-! SUPPORT. Runs of several steps: one step at a time, one after another, over a stretch of input bytes that `IN` takes in a
row, and with the environment's moves between them. -/

namespace Sys2Proof.Machine

@[simp] theorem steps_zero (s : State) : steps 0 s = .next s := rfl

/-- A run goes on with the rest after one step that answers a next state. -/
theorem steps_succ {n : Nat} {s t : State} (h : step s = .next t) : steps (n + 1) s = steps n t := by
  rw [steps, h]

theorem steps_one (s : State) : steps 1 s = step s := by
  rw [steps]
  cases step s <;> rfl

theorem steps_add {m n : Nat} {s t : State} (h : steps m s = .next t) : steps (m + n) s = steps n t := by
  induction m generalizing s with
  | zero =>
    cases h
    rw [Nat.zero_add]
  | succ m ih =>
    rw [steps] at h
    cases hs : step s with
    | next s' =>
      rw [hs] at h
      rw [show m + 1 + n = (m + n) + 1 by omega, steps_succ hs]
      exact ih h
    | fault e =>
      rw [hs] at h
      cases h
    | refused r =>
      rw [hs] at h
      cases h

/-- `steps` is the run of the machine behind the host's interface. -/
theorem steps_eq_run (n : Nat) (s : State) : steps n s = Host.Core.run Sys2Proof.core n s := by
  induction n generalizing s with
  | zero => rfl
  | succ n ih =>
    refine Eq.trans ?_ (Host.Core.run.eq_2 Sys2Proof.core s n).symm
    have hc : Sys2Proof.core.step s = step s := rfl
    rw [hc, steps]
    cases step s with
    | next t => exact ih t
    | fault e => rfl
    | refused r => rfl

/-- Where the oldest choice names `IN` and there is input, `IN` moves. -/
theorem nextAgent_of_sched {s : State} {item : RxItem} {rest : List RxItem} {sched : List Config.Agent}
    (hh : s.halt = .none) (hr : s.rx = item :: rest) (hs : s.sched = .inbound :: sched) :
    nextAgent s = some .inbound := by
  have hi : inEnabled s = true := by simp [inEnabled, hh, hr]
  unfold nextAgent
  rw [hi]
  cases sndEnabled s <;> simp [turn, hs]

/-- The first of the bytes to come is next, and the others come after it in every state that keeps the two queues. -/
theorem BytesAreNext.cons {s : State} {b : Byte} {bs : List Byte} {rest : List RxItem} {sched : List Config.Agent}
    (hh : s.halt = .none) (h : BytesAreNext (b :: bs) rest sched s) :
    ByteIsNext b (bs.map .byte ++ rest) s ∧
      ∀ t : State, t.rx = bs.map .byte ++ rest → t.sched = s.sched.tail → BytesAreNext bs rest sched t := by
  obtain ⟨h1, h2⟩ := h
  refine ⟨⟨nextAgent_of_sched hh (by simpa using h1) (by rw [h2]; rfl), by simpa using h1⟩, ?_⟩
  intro t ht1 ht2
  exact ⟨ht1, by rw [ht2, h2]; rfl⟩

/-! ### Runs with the environment's moves -/

@[simp] theorem makeMove_block (s : State) : makeMove .block s = step s := rfl
@[simp] theorem makeMove_offer (item : RxItem) (s : State) : makeMove (.offer item) s = .next (hostOffer item s) := rfl
@[simp] theorem makeMove_answer (r : Config.TxAnswer) (s : State) : makeMove (.answer r) s = .next (hostAnswer r s) := rfl
@[simp] theorem makeMove_schedule (a : Config.Agent) (s : State) :
    makeMove (.schedule a) s = .next (hostSchedule a s) := rfl

/-- Everything a move can do: a step of the block, or a host move, which appends to the environment's three lists and changes
nothing else; only an offer appends to the stream. -/
theorem makeMove_cases {m : Move} {s t : State} (h : makeMove m s = .next t) :
    (m = .block ∧ step s = .next t) ∨
    (m ≠ .block ∧ ∃ appended answers sched, t = { s with rx := s.rx ++ appended, txAnswers := answers, sched := sched } ∧
      ((∀ item, m ≠ .offer item) → appended = [])) := by
  cases m with
  | block => exact .inl ⟨rfl, h⟩
  | offer item =>
    cases h
    exact .inr ⟨(fun h => nomatch h), [item], s.txAnswers, s.sched, rfl, fun hm => absurd rfl (hm item)⟩
  | answer r =>
    cases h
    exact .inr ⟨(fun h => nomatch h), [], _, _, by rw [List.append_nil]; rfl, fun _ => rfl⟩
  | schedule a =>
    cases h
    exact .inr ⟨(fun h => nomatch h), [], _, _, by rw [List.append_nil]; rfl, fun _ => rfl⟩

/-- A move from a reachable state leads to a reachable state. -/
theorem Reachable.makeMove {m : Move} {s t : State} (hs : Reachable s) (h : makeMove m s = .next t) : Reachable t := by
  cases m with
  | block => exact .step s t hs h
  | offer item =>
    cases h
    exact .offer s item hs
  | answer r =>
    cases h
    exact .answer s r hs
  | schedule a =>
    cases h
    exact .schedule s a hs

/-- A run that begins in a reachable state stays in reachable states. -/
theorem IsRun.reachable {r : Nat → State} {moves : Nat → Move} (hr : IsRun r moves) (h : Reachable (r 0)) (n : Nat) :
    Reachable (r n) := by
  induction n with
  | zero => exact h
  | succ n ih => exact ih.makeMove (hr n)

end Sys2Proof.Machine
end

