-- ==== Sys2Proof/Tests/Slice0.lean ====
section
/-! SUPPORT. The model's own tests. Expected results are those of 95_test_vectors.md, whose vector each test names, or are
worked out by hand from the rule named. The last part gives, for every statement with hypotheses, a concrete state and
operands that meet them. -/

namespace Sys2Proof.Tests

open Sys2Proof Sys2Proof.Machine

/-! ### Small states -/

/-- The reset state with a transfer, a decoder position and an input stream. -/
def st (xs : TransferState) (cnt : Nat) (acc : Word48) (rx : List RxItem) : State :=
  { State.reset with xs := xs, cnt := cnt, acc := acc, rx := rx }

/-- The same with the region's size and contents. -/
def withMem (size : Nat) (m : Memory) (s : State) : State :=
  { s with mem := m, cfg := { s.cfg with memSize := size } }

/-- The same with the choices of the environment. -/
def withEnv (sched : List Config.Agent) (answers : List Config.TxAnswer) (s : State) : State :=
  { s with sched := sched, txAnswers := answers }

/-- After the bytes `40 00 00 01 00` of READ 4, 5 (VD9). -/
def fiveOfRead (xs : TransferState) (rx : List RxItem) : State := st xs 5 0x4000000100#48 rx

/-! ### WellFormed -/

/-- 30_encoding.md R69: `FILL b` has `b < 0x40`. -/
theorem test_wellFormed_refuses_filler_0x40 : (Instr.fill 0x40).wellFormed = false := by decide

theorem test_wellFormed_takes_filler_0x3F : (Instr.fill 0x3F).wellFormed = true := by decide

/-! ### Decoding, from words the spec writes out -/

/-- VE1, V-S1. -/
theorem test_decode_read : decode .boundary [0x40, 0x00, 0x00, 0x01, 0x00, 0x05] = .ok (.read 4 5, []) := by rfl

/-- VE18, V-S1: the bytes the source's example gives. -/
theorem test_decode_read_section8 :
    decode .boundary [0x40, 0x00, 0x00, 0x00, 0x10, 0x05] = .ok (.read 0 4101, []) := by rfl

/-- VE10, and VE7 the other way. -/
theorem test_decode_write : decode .boundary [0x80, 0x00, 0x00, 0x03, 0x80, 0x04] = .ok (.write 14 4, []) := by rfl

theorem test_encode_write : encode (.write 0x12345678 0x1ABC) = [0x84, 0x8D, 0x15, 0x9E, 0x1A, 0xBC] := by rfl

/-- VE6. -/
theorem test_decode_stop :
    decode .boundary [0xC4, 0x8D, 0x15, 0x9E, 0x1A, 0xBC] = .ok (.stop 0x048D159E1ABC, []) := by rfl

/-- 30_encoding.md R63. -/
theorem test_decode_rsvd00 : decodeWord 0x3FFFFFFFFFFF = .rsvd00 0x3FFFFFFFFFFF := by rfl

/-- VD2, VD3: the highest filler value, and the lowest first byte of a word. -/
theorem test_decode_filler : decode .boundary [0x3F] = .ok (.fill 0x3F, []) ∧
    decode .boundary [0x40] = .error (.partialWord 1) := ⟨by rfl, by rfl⟩

/-- VDT3: a payload byte with the top bits of a Stop, and one with those of filler. -/
theorem test_decode_data : decode .payload [0xC0, 0x00] = .ok (.data 0xC0, [0x00]) ∧
    decode .payload [0x00] = .ok (.data 0x00, []) := ⟨by rfl, by rfl⟩

/-- VE8 as bits of the opcode table. -/
theorem test_decodeTableWord : decodeTableWord 48 0x7FFFFFFFFFFF = some (.read 0xFFFFFFFF 16383) ∧
    decodeTableWord 48 0x800000014000 = some (.write 5 0) ∧ decodeTableWord 48 0xC00000000000 = some (.stop 0) ∧
    decodeTableWord 48 0 = some (.rsvd00 0) ∧ decodeTableWord 8 0x05 = some (.fill 0x05) ∧
    decodeTableWord 8 0xC0 = some (.data 0xC0) := ⟨by rfl, by rfl, by rfl, by rfl, by rfl, by rfl⟩

/-! ### One step of an instruction -/

/-- VD9, VRD1. -/
theorem test_read_arms : step (fiveOfRead .idle [.byte 0x05]) =
    .next { st (.reading 4 5 false) 0 0 [] with draws := 1 } := by rfl

/-- VRD4 at its sixth byte. -/
theorem test_read_while_reading : step (withEnv [.inbound] [] (st (.reading 0 1 false) 5 0x4000000000#48 [.byte 0x01])) =
    .next { st (.reading 0 1 false) 0 0 [] with
      draws := 1, halt := .fatal .protocolViolation, memLive := false,
      diag := [.fatalReport .protocolViolation (.protocol 0b01 0 1 (.reading 0 1 false))] } := by rfl

/-- VWR1 at its sixth byte. -/
theorem test_write_starts : step (st .idle 5 0x8000000400#48 [.byte 0x03]) =
    .next { st (.writing 0x10 3 0) 0 0 [] with draws := 1 } := by rfl

/-- VWR2 at its sixth byte: a write of length 0 stays Idle. -/
theorem test_write_zero_length : step (st .idle 5 0x8000000140#48 [.byte 0x00]) =
    .next { st .idle 0 0 [] with draws := 1 } := by rfl

/-- VDT1. -/
theorem test_data_last_byte : step (st (.writing 0x10 3 2) 0 0 [.byte 0xCC]) =
    .next { st .idle 0 0 [] with mem := [(0x12, 0xCC)], draws := 1 } := by rfl

/-- VDT4 at its third byte: outside the region. -/
theorem test_data_out_of_range : step (withMem 16 [] (st (.writing 14 4 2) 0 0 [.byte 0x03])) =
    .next { withMem 16 [] (st (.writing 14 4 3) 0 0 []) with
      draws := 1, diag := [.outOfRange .write 16 1] } := by rfl

/-- VST3 at its sixth byte. -/
theorem test_stop : step (withEnv [.inbound] [] { st (.reading 0 4 false) 5 0xC000000000#48 [.byte 0] with stopPending := true }) =
    .next { st (.reading 0 4 false) 0 0 [] with
      draws := 1, stopPending := true, halt := .stopped, memLive := false } := by rfl

/-- VD4, VD8: only a first byte gives the notice. -/
theorem test_stop_notice : step (st .idle 0 0 [.byte 0xC0]) =
      .next { st .idle 1 0xC0#48 [] with draws := 1, stopPending := true } ∧
    step (st .idle 1 0x40#48 [.byte 0xC0]) = .next { st .idle 2 0x40C0#48 [] with draws := 1 } := ⟨by rfl, by rfl⟩

/-- VD2. -/
theorem test_filler : step (st .idle 0 0 [.byte 0x3F]) = .next { st .idle 0 0 [] with draws := 1 } := by rfl

/-- VD7: no filler inside a word. -/
theorem test_no_filler_in_a_word : step (st .idle 1 0x40#48 [.byte 0x00]) =
    .next { st .idle 2 0x4000#48 [] with draws := 1 } := by rfl

/-- 41_transfer.md R90. -/
theorem test_rsvd00 : exec (.rsvd00 5) State.reset = .next State.reset := by rfl

/-! ### The sender, the memory port, faults and the launch -/

/-- VSN1's sender step with three bytes, and VSN2. -/
theorem test_emit : sndStep (withEnv [] [.ok] (withMem 16 [(5, 0x22), (6, 0x33)] (st (.reading 4 3 false) 0 0 []))) =
      .next { withMem 16 [(5, 0x22), (6, 0x33)] (st (.reading 4 3 true) 0 0 []) with tx := [0x00, 0x22, 0x33] } ∧
    sndStep (st (.reading 4 3 true) 0 0 []) = .next (st .idle 0 0 []) := ⟨by rfl, by rfl⟩

/-- VSN6. -/
theorem test_emit_out_of_range : sndStep (withMem 16 [(14, 1)] (st (.reading 14 4 false) 0 0 [])) =
    .next { withMem 16 [(14, 1)] (st (.reading 14 4 true) 0 0 []) with diag := [.outOfRange .read 14 4] } := by rfl

/-- VSN7. -/
theorem test_emit_fails :
    sndStep (withEnv [] [.fail 1] (withMem 16 [(0, 0x11), (1, 0x22), (2, 0x33)] (st (.reading 0 3 false) 0 0 []))) =
    .next { withMem 16 [(0, 0x11), (1, 0x22), (2, 0x33)] (st (.reading 0 3 false) 0 0 []) with
      tx := [0x11], halt := .fatal .transportFailure, memLive := false,
      diag := [.fatalReport .transportFailure (.transport .txFail)] } := by rfl

/-- VM1, VM2, VM5, VM7, VM8. -/
theorem test_memory_port :
    memWrite 15 0x55 (withMem 16 [] State.reset) = .ok (withMem 16 [(15, 0x55)] State.reset) ∧
    memWrite 16 0x55 (withMem 16 [] State.reset) =
      .ok { withMem 16 [] State.reset with diag := [.outOfRange .write 16 1] } ∧
    memRead 16 0 (withMem 16 [] State.reset) = .ok ([], withMem 16 [] State.reset) ∧
    getByte 20 (withMem 16 [] State.reset) = .ok (0, { withMem 16 [] State.reset with diag := [.outOfRange .read 20 1] }) ∧
    memRead 0 1 { State.reset with memLive := false } = .error (.useAfterRelease .read) :=
  ⟨by rfl, by rfl, by rfl, by rfl, by rfl⟩

/-- VF2. -/
theorem test_input_failure : step (withMem 16 [(0, 0x11)] (st (.writing 0 3 1) 0 0 [.fail])) =
    .next { withMem 16 [(0, 0x11)] (st (.writing 0 3 1) 0 0 []) with
      draws := 1, halt := .fatal .transportFailure, memLive := false,
      diag := [.fatalReport .transportFailure (.transport .rxFail)] } := by rfl

/-- VF1. -/
theorem test_failed_launch :
    (State.launch { Config.defaultParams with allocOk := false }).diag =
      [.fatalReport .allocationFailure (.allocation 65536)] ∧
    (State.launch { Config.defaultParams with allocOk := false }).halt = .fatal .allocationFailure := ⟨by rfl, by rfl⟩

/-- VF4, VF5: with no item, or after the end, the state waits unchanged. -/
theorem test_waits : step State.reset = .next State.reset ∧
    step { st .idle 0 0 [.fail] with halt := .stopped } = .next { st .idle 0 0 [.fail] with halt := .stopped } :=
  ⟨by rfl, by rfl⟩

/-- The placed form is what the next step runs, and it runs it as the table's first bytes (VE1, VE3, VE5). -/
theorem test_withFetchWord : step (State.reset.withFetchWord 48 0x400000010005) =
      exec (.read 4 5) { State.reset with draws := 1 } ∧
    step (State.reset.withFetchWord 48 0x800000040003) = exec (.write 0x10 3) { State.reset with draws := 1 } ∧
    step (State.reset.withFetchWord 48 0xC00000000000) =
      exec (.stop 0) { State.reset with draws := 1, stopPending := true } ∧
    step (State.reset.withFetchWord 48 5) = exec (.rsvd00 5) { State.reset with draws := 1 } ∧
    step (State.reset.withFetchWord 8 0x05) = exec (.fill 0x05) { State.reset with draws := 1 } ∧
    step (State.reset.withFetchWord 8 0xC0) = exec (.data 0xC0) { st (.writing 0 1 0) 0 0 [] with draws := 1 } :=
  ⟨by rfl, by rfl, by rfl, by rfl, by rfl, by rfl⟩

/-! ### Witnesses: states and operands that meet the statements' hypotheses

Each theorem is named after the statement. Where a hypothesis is `step s = .next t`, the witness gives both states. -/

/-- A Write transfer in its second byte. -/
def wWriting : State := withMem 16 [(14, 0x11)] (st (.writing 14 2 1) 0 0 [.byte 0xAA, .byte 0x40])

/-- The last byte of a Stop word while a reply is pending, `IN` to move. -/
def wStop : State :=
  withEnv [.inbound] [] { st (.reading 0 4 false) 5 0xC000000000#48 [.byte 0x00] with stopPending := true }

/-- The last byte of READ 4, 5 from Idle. -/
def wRead : State := fiveOfRead .idle [.byte 0x05]

/-- The last byte of READ 4, 5 while a drained reply is not yet cleared, `IN` to move. -/
def wViolation : State := withEnv [.inbound] [] (fiveOfRead (.reading 14 2 true) [.byte 0x05])

/-- One byte at a word boundary. -/
def wBoundary (b : Byte) : State := st .idle 0 0 [.byte b]

/-- One byte after the first byte `40`. -/
def wMidWord (b : Byte) : State := st .idle 1 0x40#48 [.byte b]

/-- A Read transfer of the last two bytes of the region, the sender to move, and the host's answer. -/
def wEmit (r : Config.TxAnswer) : State :=
  withEnv [.sender] [r] (withMem 16 [(14, 0x11), (15, 0x22)] (st (.reading 14 2 false) 0 0 []))

/-- A Read transfer one byte past the region, the sender to move. -/
def wEmitOut : State := withEnv [.sender] [] (withMem 16 [(15, 0x22)] (st (.reading 15 2 false) 0 0 []))

/-- A drained Read transfer. -/
def wDrained : State := st (.reading 14 2 true) 0 0 []

/-- Ended by a Stop, with input left over. -/
def wStopped : State :=
  { st (.reading 0 4 false) 0 0 [.byte 0x05] with stopPending := true, halt := .stopped, memLive := false }

/-- Ended by an input failure inside a word. -/
def wFailed : State :=
  { st .idle 2 0x4000#48 [] with
    halt := .fatal .transportFailure, memLive := false, diag := [.fatalReport .transportFailure (.transport .rxEos)] }

/-! The invariant, in states that no launch alone leaves. -/

theorem witness_inv_writing : BlockInv wWriting :=
  ⟨by decide, by decide, by decide, by decide, by decide, ⟨by decide, by decide, by decide⟩, by decide, by decide, by decide, by decide,
    by decide, (fun _ h => nomatch h), by decide⟩

theorem witness_inv_stop : BlockInv wStop :=
  ⟨by decide, by decide, by decide, by decide, by decide, (by decide : (4 : Nat) ≤ 16383), by decide, by decide, by decide, by decide,
    by decide, (fun _ h => nomatch h), by decide⟩

theorem witness_inv_read : BlockInv wRead :=
  ⟨by decide, by decide, by decide, by decide, by decide, trivial, by decide, by decide, by decide, by decide,
    by decide, (fun _ h => nomatch h), by decide⟩

theorem witness_inv_midWord : BlockInv (wMidWord 0x00) :=
  ⟨by decide, by decide, by decide, by decide, by decide, trivial, by decide, by decide, by decide, by decide,
    by decide, (fun _ h => nomatch h), by decide⟩

theorem witness_inv_boundary : BlockInv (wBoundary 0x40) :=
  ⟨by decide, by decide, by decide, by decide, by decide, trivial, by decide, by decide, by decide, by decide,
    by decide, (fun _ h => nomatch h), by decide⟩

theorem witness_inv_stopped : BlockInv wStopped :=
  ⟨by decide, by decide, by decide, by decide, by decide, (by decide : (4 : Nat) ≤ 16383), by decide, by decide, by decide, by decide,
    by decide, (fun _ h => nomatch h), by decide⟩

theorem witness_inv_failed : BlockInv wFailed :=
  ⟨by decide, by decide, by decide, by decide, by decide, trivial, by decide, by decide, by decide, by decide,
    by decide, (fun _ h => by cases h; rfl), by decide⟩

/-! What is next on RX. -/

theorem witness_next_writing : ByteIsNext 0xAA [.byte 0x40] wWriting := ⟨by rfl, by rfl⟩

theorem witness_next_stop : ByteIsNext 0x00 [] wStop := ⟨by rfl, by rfl⟩

theorem witness_next_read : ByteIsNext 0x05 [] wRead := ⟨by rfl, by rfl⟩

theorem witness_next_violation : ByteIsNext 0x05 [] wViolation := ⟨by rfl, by rfl⟩

theorem witness_next_boundary (b : Byte) : ByteIsNext b [] (wBoundary b) := ⟨by rfl, by rfl⟩

theorem witness_next_midWord (b : Byte) : ByteIsNext b [] (wMidWord b) := ⟨by rfl, by rfl⟩

/-! Encoding. -/

theorem witness_DecodeOfEncodeIsTheInstruction :
    (Instr.fill 0x3F).wellFormed = true ∧ (∀ x, Instr.fill 0x3F ≠ .rsvd00 x) ∧
    (Instr.stop 0x3FFFFFFFFFFF).wellFormed = true ∧ encodeWord (.stop 0x3FFFFFFFFFFF) = some 0xFFFFFFFFFFFF :=
  ⟨by decide, (fun _ h => nomatch h), by decide, by rfl⟩

theorem witness_DecodedFormsAreTheirEncoding :
    decode .boundary [0xBF, 0xFF, 0xFF, 0xFF, 0xC0, 0x02, 0xA1] = .ok (.write 0xFFFFFFFF 2, [0xA1]) ∧
    decode .payload [0x00] = .ok (.data 0x00, []) ∧ decode .boundary [0x00] = .ok (.fill 0x00, []) :=
  ⟨by rfl, by rfl, by rfl⟩

theorem witness_EveryWordEncodesOneInstruction : encodeWord (.rsvd00 5) = some 5 := by rfl

theorem witness_HeaderMaskSelectsInstruction :
    0x7FFFFFFFFFFF#48 &&& 0xC00000000000#48 = 0x400000000000#48 ∧
    0x800000000000#48 &&& 0xC00000000000#48 = 0x800000000000#48 ∧
    0xFFFFFFFFFFFF#48 &&& 0xC00000000000#48 = 0xC00000000000#48 ∧
    0x3FFFFFFFFFFF#48 &&& 0xC00000000000#48 = 0x000000000000#48 := by decide

/-! The inbound agent. Where the statement's other hypotheses are the transfer state and the count, they are read off
the state. -/

theorem witness_StepRunsDecodedInstruction :
    (ByteIsNext 0xAA [.byte 0x40] wWriting ∧ wWriting.xs.kind = .writing ∧
      decode .payload [0xAA] = .ok (.data 0xAA, [])) ∧
    (ByteIsNext 0x3F [] (wBoundary 0x3F) ∧ (wBoundary 0x3F).xs.kind ≠ .writing ∧ (wBoundary 0x3F).cnt = 0 ∧
      decode .boundary [0x3F] = .ok (.fill 0x3F, [])) ∧
    (ByteIsNext 0x05 [] wRead ∧ wRead.xs.kind ≠ .writing ∧ wRead.cnt = 5 ∧
      decodeWord ((wRead.acc <<< 8) ||| (0x05 : Byte).setWidth 48) = .read 4 5) :=
  ⟨⟨witness_next_writing, by decide, by rfl⟩, ⟨witness_next_boundary _, by decide, by decide, by rfl⟩,
    ⟨witness_next_read, by decide, by decide, by rfl⟩⟩

theorem witness_BytesAreRoutedByTransferState :
    (ByteIsNext 0xAA [.byte 0x40] wWriting ∧ wWriting.xs.kind = .writing) ∧
    (ByteIsNext 0x00 [] wStop ∧ wStop.xs.kind ≠ .writing) :=
  ⟨⟨witness_next_writing, by decide⟩, ⟨witness_next_stop, by decide⟩⟩

theorem witness_ByteIsShiftedIntoAccumulator :
    (BlockInv (wBoundary 0x40) ∧ ByteIsNext 0x40 [] (wBoundary 0x40) ∧ (wBoundary 0x40).xs.kind ≠ .writing ∧
      ¬ ((wBoundary 0x40).cnt = 0 ∧ (0x40 : Byte).toNat < 0x40) ∧ (wBoundary 0x40).cnt < 5) ∧
    (BlockInv (wMidWord 0x00) ∧ ByteIsNext 0x00 [] (wMidWord 0x00) ∧ (wMidWord 0x00).xs.kind ≠ .writing ∧
      ¬ ((wMidWord 0x00).cnt = 0 ∧ (0x00 : Byte).toNat < 0x40) ∧ (wMidWord 0x00).cnt < 5) ∧
    (BlockInv wStop ∧ ByteIsNext 0x00 [] wStop ∧ wStop.xs.kind ≠ .writing ∧
      ¬ (wStop.cnt = 0 ∧ (0x00 : Byte).toNat < 0x40) ∧ wStop.cnt = 5) :=
  ⟨⟨witness_inv_boundary, witness_next_boundary _, by decide, by decide, by decide⟩,
    ⟨witness_inv_midWord, witness_next_midWord _, by decide, by decide, by decide⟩,
    ⟨witness_inv_stop, witness_next_stop, by decide, by decide, by decide⟩⟩

/-- The first byte at both sides of the boundary, `BF` and `C0`. -/
theorem witness_StopNoticeIsSetByFirstByteOnly :
    step (wBoundary 0xC0) = .next { st .idle 1 0xC0#48 [] with draws := 1, stopPending := true } ∧
    step (wBoundary 0xBF) = .next { st .idle 1 0xBF#48 [] with draws := 1 } := ⟨by rfl, by rfl⟩

theorem witness_FillerOnlyAtWordBoundary :
    (ByteIsNext 0x3F [] (wBoundary 0x3F) ∧ (wBoundary 0x3F).xs.kind ≠ .writing ∧ (0x3F : Byte).toNat < 0x40 ∧
      (wBoundary 0x3F).cnt = 0) ∧
    (ByteIsNext 0x00 [] (wMidWord 0x00) ∧ (wMidWord 0x00).xs.kind ≠ .writing ∧ (0x00 : Byte).toNat < 0x40 ∧
      (wMidWord 0x00).cnt ≠ 0 ∧ (wMidWord 0x00).cnt < 5) ∧
    (ByteIsNext 0x00 [] wStop ∧ wStop.xs.kind ≠ .writing ∧ (0x00 : Byte).toNat < 0x40 ∧ wStop.cnt = 5) :=
  ⟨⟨witness_next_boundary _, by decide, by decide, by decide⟩,
    ⟨witness_next_midWord _, by decide, by decide, by decide, by decide⟩,
    ⟨witness_next_stop, by decide, by decide, by decide⟩⟩

/-- V-S7's filler. -/
theorem witness_FillerRunIsIdempotent :
    (∀ b ∈ ([0x00, 0x3F, 0x12] : List Byte), b.toNat < 0x40) ∧ State.reset.halt = .none ∧ State.reset.cnt = 0 ∧
    State.reset.xs.kind ≠ .writing ∧
    BytesAreNext [0x00, 0x3F, 0x12] [.eos] [.sender]
      (withEnv [.inbound, .inbound, .inbound, .sender] [] (st .idle 0 0 [.byte 0x00, .byte 0x3F, .byte 0x12, .eos])) :=
  ⟨by decide, by rfl, by rfl, by decide, by rfl, by rfl⟩

/-- A word at a boundary, and a payload byte. -/
theorem witness_FramerRefinesStreamDecoder :
    (let s := withEnv (List.replicate 6 .inbound ++ [.sender]) []
      (st .idle 0 0 [.byte 0x40, .byte 0x00, .byte 0x00, .byte 0x01, .byte 0x00, .byte 0x05])
     s.halt = .none ∧ s.cnt = 0 ∧
      decode (streamContext s) [0x40, 0x00, 0x00, 0x01, 0x00, 0x05] = .ok (.read 4 5, []) ∧
      BytesAreNext [0x40, 0x00, 0x00, 0x01, 0x00, 0x05] [] [.sender] s) ∧
    (let s := withEnv [.inbound] [] wWriting
     s.halt = .none ∧ s.cnt = 0 ∧ decode (streamContext s) [0xAA] = .ok (.data 0xAA, []) ∧
      BytesAreNext [0xAA] [.byte 0x40] [] s) :=
  ⟨⟨by rfl, by rfl, by rfl, by rfl, by rfl⟩, ⟨by rfl, by rfl, by rfl, by rfl, by rfl⟩⟩

/-- The four headers at the sixth byte. -/
theorem witness_SixthByteCompletesTheWord :
    (ByteIsNext 0x05 [] wRead ∧ wRead.xs.kind ≠ .writing ∧ wRead.cnt = 5 ∧
      ((wRead.acc <<< 8) ||| (0x05 : Byte).setWidth 48).toNat / 2 ^ 46 = 1) ∧
    (ByteIsNext 0xFF [] (st .idle 5 0xBFFFFFFFFF#48 [.byte 0xFF]) ∧
      ((0xBFFFFFFFFF#48 <<< 8) ||| (0xFF : Byte).setWidth 48).toNat / 2 ^ 46 = 2) ∧
    (ByteIsNext 0x00 [] wStop ∧ wStop.xs.kind ≠ .writing ∧ wStop.cnt = 5 ∧
      ((wStop.acc <<< 8) ||| (0x00 : Byte).setWidth 48).toNat / 2 ^ 46 = 3) ∧
    (ByteIsNext 0xFF [] (st .idle 5 0x3FFFFFFFFF#48 [.byte 0xFF]) ∧
      ((0x3FFFFFFFFF#48 <<< 8) ||| (0xFF : Byte).setWidth 48).toNat / 2 ^ 46 = 0) :=
  ⟨⟨witness_next_read, by decide, by decide, by decide⟩, ⟨⟨by rfl, by rfl⟩, by decide⟩,
    ⟨witness_next_stop, by decide, by decide, by decide⟩, ⟨⟨by rfl, by rfl⟩, by decide⟩⟩

theorem witness_InputIsTakenInOrder :
    State.reset.rx = [] ∧
    (step wRead = .next { st (.reading 4 5 false) 0 0 [] with draws := 1 } ∧ nextAgent wRead = some .inbound) ∧
    (step wDrained = .next { st .idle 0 0 [] with draws := 1 } ∧ nextAgent wDrained ≠ some .inbound) :=
  ⟨by rfl, ⟨by rfl, by rfl⟩, ⟨by rfl, by decide⟩⟩

/-! The instructions. -/

theorem witness_ReadArmsTheSender_WriteStartsItsTransfer :
    State.reset.xs = .idle ∧ (16383 : Len) ≠ 0 ∧ (0 : Len) = 0 := by decide

/-- Both sides of the region's end, and the last byte of a transfer. -/
theorem witness_DataIsStoredAndCounted :
    (wWriting.xs = .writing 14 2 1 ∧ wWriting.memLive = true ∧ Memory.wf wWriting.mem = true ∧
      (14 : Addr).toNat + (1 : Count).toNat < wWriting.cfg.memSize ∧ (1 : Count) + 1 = 2) ∧
    (withMem 15 [] wWriting).xs = .writing 14 2 1 ∧
      (withMem 15 [] wWriting).cfg.memSize ≤ (14 : Addr).toNat + (1 : Count).toNat := by decide

theorem witness_DataFrame : exec (.data 0xAA) wWriting =
      .next { wWriting with mem := [(14, 0x11), (15, 0xAA)], xs := .idle } ∧
    (14 : Nat) ≠ payloadOffset 14 1 ∧ (16 : Nat) ≠ payloadOffset 14 1 := ⟨by rfl, by decide, by decide⟩

theorem witness_StopIgnoresItsOperands :
    (0xC00000000000 : Word48).toNat / 2 ^ 46 = 3 ∧ (0xFFFFFFFFFFFF : Word48).toNat / 2 ^ 46 = 3 := by decide

theorem witness_SecondTransferIsProtocolViolation : wViolation.xs ≠ .idle ∧ wWriting.xs ≠ .idle := by decide

theorem witness_WordFormsFrame :
    (∀ b, Instr.read 4 5 ≠ .data b) ∧
    exec (.read 4 5) State.reset = .next { State.reset with xs := .reading 4 5 false } ∧
    exec (.write 4 5) (st (.reading 0 2 true) 0 0 []) = .next { st (.reading 0 2 true) 0 0 [] with
      halt := .fatal .protocolViolation, memLive := false,
      diag := [.fatalReport .protocolViolation (.protocol 0b10 4 5 (.reading 0 2 true))] } :=
  ⟨(fun _ h => nomatch h), by rfl, by rfl⟩

theorem witness_DataOutsideWritingIsRefused :
    State.reset.xs.kind ≠ .writing ∧ wDrained.xs.kind ≠ .writing := by decide

/-! The memory port. -/

theorem witness_ReleasedRegionFaultsAndIsUnreachable : wStopped.memLive = false ∧ BlockInv wStopped :=
  ⟨by rfl, witness_inv_stopped⟩

/-- Offsets 15 and 16 of a region of 16 bytes. -/
theorem witness_ByteWriteStoresOrReports_SingleByteRead :
    wWriting.memLive = true ∧ Memory.wf wWriting.mem = true ∧ 15 < wWriting.cfg.memSize ∧ wWriting.cfg.memSize ≤ 16 ∧
    15 < memSize wWriting ∧ memSize wWriting ≤ 16 := by decide

/-- VM3, VM4, VM5. -/
theorem witness_SpanReadIsAllOrNothing :
    wWriting.memLive = true ∧ 0 + 16 ≤ wWriting.cfg.memSize ∧ wWriting.cfg.memSize < 1 + 16 ∧
    16 + 0 ≤ wWriting.cfg.memSize := by decide

theorem witness_EqualReadsAreEqualMemories : Memory.wf [(0, 1), (5, 0xFF)] = true ∧
    ∀ a, Memory.read [(0, 1), (5, 0xFF)] a = Memory.read [(0, 1), (5, 0xFF)] a := ⟨by decide, fun _ => rfl⟩

theorem witness_OnlyPayloadBytesChangeMemory :
    Memory.wf wWriting.mem = true ∧
    step wWriting = .next { wWriting with
      mem := [(14, 0x11), (15, 0xAA)], xs := .idle, rx := [.byte 0x40], draws := 1 } ∧
    Memory.read [(14, 0x11), (15, 0xAA)] 15 ≠ byteAt wWriting 15 := ⟨by decide, by rfl, by decide⟩

theorem witness_HighOffsetsAreNeverWritten :
    BlockInv wWriting ∧ (∃ t, step wWriting = .next t) ∧ 4294983678 ≤ 4294983678 :=
  ⟨witness_inv_writing, ⟨_, rfl⟩, by decide⟩

/-- VDT3, at the region's last two bytes. -/
theorem witness_PayloadLandsInAscendingOrder :
    let s := withEnv [.inbound, .inbound] [] (withMem 16 [] (st (.writing 14 2 0) 0 0 [.byte 0xC0, .byte 0x00, .eos]))
    s.halt = .none ∧ s.memLive = true ∧ Memory.wf s.mem = true ∧ s.xs = .writing 14 2 0 ∧
    ([0xC0, 0x00] : List Byte).length = (2 : Count).toNat ∧ 0 < ([0xC0, 0x00] : List Byte).length ∧
    BytesAreNext [0xC0, 0x00] [.eos] [] s ∧ 14 + 0 < s.cfg.memSize ∧ s.cfg.memSize ≤ 16 :=
  ⟨by rfl, by rfl, by rfl, by rfl, by rfl, by decide, ⟨by rfl, by rfl⟩, by decide, by decide⟩

/-- V-S4 with one byte of data, at the region's last byte. -/
theorem witness_WriteThenReadReturnsTheData :
    let s := withEnv (List.replicate 13 .inbound ++ [.sender]) [.ok] (withMem 16 []
      (st .idle 0 0 ((encode (.write 15 1) ++ [0xAA] ++ encode (.read 15 1)).map .byte)))
    s.halt = .none ∧ s.memLive = true ∧ Memory.wf s.mem = true ∧ s.xs = .idle ∧ s.cnt = 0 ∧
    ([0xAA] : List Byte).length = (1 : Len).toNat ∧ (15 : Addr).toNat + (1 : Len).toNat ≤ s.cfg.memSize ∧
    s.txAnswers = .ok :: [] ∧ BytesAreNext (encode (.write 15 1) ++ [0xAA] ++ encode (.read 15 1)) [] [.sender] s :=
  ⟨by rfl, by rfl, by rfl, by rfl, by rfl, by rfl, by decide, by rfl, by rfl, by rfl⟩

/-! The sender. -/

/-- The region's last two bytes, and an empty span at its end (VSN4). -/
theorem witness_EmitSendsTheSpan :
    (nextAgent (wEmit .ok) = some .sender ∧ (wEmit .ok).xs = .reading 14 2 false ∧ (wEmit .ok).memLive = true ∧
      (14 : Addr).toNat + (2 : Count).toNat ≤ (wEmit .ok).cfg.memSize ∧ txAnswer (advance (wEmit .ok)) = .ok) ∧
    (let s := withMem 16 [] (st (.reading 16 0 false) 0 0 [])
     nextAgent s = some .sender ∧ s.xs = .reading 16 0 false ∧ s.memLive = true ∧
      (16 : Addr).toNat + (0 : Count).toNat ≤ s.cfg.memSize) :=
  ⟨⟨by rfl, by rfl, by rfl, by decide, by rfl⟩, ⟨by rfl, by rfl, by rfl, by decide⟩⟩

theorem witness_OutOfRangeReadSendsNothing :
    nextAgent wEmitOut = some .sender ∧ wEmitOut.xs = .reading 15 2 false ∧ wEmitOut.memLive = true ∧
    wEmitOut.cfg.memSize < (15 : Addr).toNat + (2 : Count).toNat := ⟨by rfl, by rfl, by rfl, by decide⟩

/-- No byte, one byte and more than there are got through. -/
theorem witness_FailedReplyIsTransportFailure (k : Nat) :
    nextAgent (wEmit (.fail k)) = some .sender ∧ (wEmit (.fail k)).xs = .reading 14 2 false ∧
    (wEmit (.fail k)).memLive = true ∧ (14 : Addr).toNat + (2 : Count).toNat ≤ (wEmit (.fail k)).cfg.memSize ∧
    (2 : Count) ≠ 0 ∧ txAnswer (advance (wEmit (.fail k))) = .fail k :=
  ⟨by rfl, by rfl, by rfl, by show 16 ≤ 16; decide, by decide, by rfl⟩

theorem witness_ClearEndsTheReadTransfer :
    nextAgent wDrained = some .sender ∧ wDrained.xs = .reading 14 2 true := ⟨by rfl, by rfl⟩

theorem witness_Sender_statements :
    nextAgent wDrained = some .sender ∧ step wDrained = .next { st .idle 0 0 [] with draws := 1 } ∧
    nextAgent (wEmit .ok) = some .sender ∧
    step (wEmit .ok) = .next { withEnv [] [] (wEmit .ok) with
      tx := [0x11, 0x22], xs := .reading 14 2 true, draws := 1 } ∧
    (∃ t, step (wMidWord 0x00) = .next t ∧ t.cnt ≠ (wMidWord 0x00).cnt) :=
  ⟨by rfl, by rfl, by rfl, by rfl, ⟨_, rfl, by decide⟩⟩

/-! Errors and the end of communication. -/

/-- In the middle of a word and of a payload. -/
theorem witness_InputFailureIsFatal_EndOfStreamIsFatal :
    (nextAgent (st .idle 2 0x4000#48 [.eos]) = some .inbound ∧ (st .idle 2 0x4000#48 [.eos]).rx = .eos :: []) ∧
    (nextAgent (st (.writing 0 3 1) 0 0 [.fail]) = some .inbound ∧
      (st (.writing 0 3 1) 0 0 [.fail]).rx = .fail :: []) := ⟨⟨by rfl, by rfl⟩, ⟨by rfl, by rfl⟩⟩

theorem witness_OutOfRangeIsRecoveredLocally :
    ((withMem 15 [] wWriting).xs = .writing 14 2 1 ∧ (withMem 15 [] wWriting).memLive = true ∧
      (withMem 15 [] wWriting).cfg.memSize ≤ (14 : Addr).toNat + (1 : Count).toNat) ∧
    (wEmitOut.xs = .reading 15 2 false ∧ wEmitOut.memLive = true ∧
      wEmitOut.cfg.memSize < (15 : Addr).toNat + (2 : Count).toNat) := by decide

/-- A fatal condition; the sender's report is in `test_emit_out_of_range`. -/
theorem witness_AtMostOneReportPerStep : step wViolation = .next { withEnv [] [] wViolation with
      acc := 0, cnt := 0, rx := [], draws := 1, halt := .fatal .protocolViolation, memLive := false,
      diag := [.fatalReport .protocolViolation (.protocol 0b01 4 5 (.reading 14 2 true))] } ∧
    wViolation.halt = .none := ⟨by rfl, by rfl⟩

theorem witness_EndedCommunicationIsTerminal : wStopped.halt ≠ .none ∧ wFailed.halt ≠ .none := by decide

/-- The four ways to the end. -/
theorem witness_OnlyTheseStepsEndCommunication :
    wStop.halt = .none ∧
    step wStop = .next { withEnv [] [] wStop with
      acc := 0, cnt := 0, rx := [], draws := 1, halt := .stopped, memLive := false } ∧
    (∃ t, step wViolation = .next t ∧ t.halt = .fatal .protocolViolation) ∧
    (∃ t, step (st .idle 0 0 [.eos]) = .next t ∧ t.halt = .fatal .transportFailure) ∧
    (∃ t, step (wEmit (.fail 0)) = .next t ∧ t.halt = .fatal .transportFailure) :=
  ⟨by rfl, by rfl, ⟨_, rfl, rfl⟩, ⟨_, rfl, rfl⟩, ⟨_, rfl, rfl⟩⟩

theorem witness_OnlyTheseStepsChangeTheTransferState :
    (∃ t, step wRead = .next t ∧ t.xs ≠ wRead.xs) ∧ (∃ t, step wWriting = .next t ∧ t.xs ≠ wWriting.xs) ∧
    (∃ t, step wDrained = .next t ∧ t.xs ≠ wDrained.xs) :=
  ⟨⟨_, rfl, by decide⟩, ⟨_, rfl, by decide⟩, ⟨_, rfl, by decide⟩⟩

theorem witness_EndStatusFollowsTheEnd :
    (BlockInv wStop ∧ commActive wStop = true) ∧ (BlockInv wStopped ∧ wStopped.halt = .stopped) ∧
    (BlockInv wFailed ∧ wFailed.halt = .fatal .transportFailure) :=
  ⟨⟨witness_inv_stop, by rfl⟩, ⟨witness_inv_stopped, by rfl⟩, ⟨witness_inv_failed, by rfl⟩⟩

/-! Launch, invariants, whole-machine rules. -/

/-- An empty region, and one whose first and last bytes are given. -/
def wParams (alloc : Bool) : Config.Params :=
  { Config.defaultParams with memSize := 16, memInit := [(0, 0x5A), (15, 0xA5)], allocOk := alloc }

theorem witness_launch_statements :
    (wParams false).allocOk = false ∧ (wParams true).allocOk = true ∧ paramsOk (wParams true) = true ∧
    paramsOk { wParams true with memSize := 0, memInit := [] } = true := by decide

theorem witness_EveryStepKeepsTheInvariant :
    BlockInv wWriting ∧ (∃ t, step wWriting = .next t ∧ t ≠ wWriting) ∧
    BlockInv wStop ∧ (∃ t, step wStop = .next t ∧ t ≠ wStop) :=
  ⟨witness_inv_writing, ⟨_, rfl, by decide⟩, witness_inv_stop, ⟨_, rfl, by decide⟩⟩

/-- A launch, an item from the host, a choice and an answer, and a step. -/
theorem witness_ReachableStatesStepOn : Reachable
    { State.launch (wParams true) with acc := 0x40, cnt := 1, txAnswers := [.fail 1], draws := 1 } :=
  .step _ _ (.answer _ (.fail 1) (.schedule _ .inbound (.offer _ (.byte 0x40) (.launch (wParams true) (by decide))))) rfl

theorem witness_AnyEnabledAgentMayMove :
    nextAgent wRead = some .inbound ∧ nextAgent wDrained = some .sender ∧
    inEnabled wViolation = true ∧ sndEnabled wViolation = true ∧ nextAgent State.reset = none :=
  ⟨by rfl, by rfl, by rfl, by rfl, by rfl⟩

theorem witness_ReadHazardDependsOnTheOrder :
    wViolation.halt = .none ∧ wViolation.xs = .reading 14 2 true ∧ wViolation.cnt = 5 ∧
    wViolation.rx = .byte 0x05 :: [] ∧
    decodeWord ((wViolation.acc <<< 8) ||| (0x05 : Byte).setWidth 48) = .read 4 5 :=
  ⟨by rfl, by rfl, by rfl, by rfl, by rfl⟩

/-- A run that begins with the given states and moves and then waits, `last` being the state it waits in. -/
def wRun (states : List State) (last : State) (n : Nat) : State := states.getD n last

/-- The moves of such a run: the given ones, and then the block's. -/
def wMoves (moves : List Move) (n : Nat) : Move := moves.getD n .block

/-- The host sends a filler byte and lets the sender move first; the sender clears, the filler is taken, and the block waits. -/
theorem witness_FairSenderEndsEveryRead :
    let r := wRun [wDrained, { wDrained with rx := [.byte 0x3F] }, withEnv [.sender] [] { wDrained with rx := [.byte 0x3F] },
      { wBoundary 0x3F with draws := 1 }] { st .idle 0 0 [] with draws := 2 }
    let moves := wMoves [.offer (.byte 0x3F), .schedule .sender]
    IsRun r moves ∧ FairSnd r moves ∧ (r 0).xs = .reading 14 2 true := by
  refine ⟨fun n => ?_, fun n h => ?_, by rfl⟩
  · match n with
    | 0 | 1 | 2 | 3 => rfl
    | _ + 4 => rfl
  · exact absurd (h (n + 4) (by omega)) Bool.false_ne_true

/-- The host appends a second filler byte before the first is taken. -/
theorem witness_FairInboundTakesEveryItem :
    let r := wRun [wBoundary 0x3F, st .idle 0 0 [.byte 0x3F, .byte 0x12], { wBoundary 0x12 with draws := 1 }]
      { st .idle 0 0 [] with draws := 2 }
    let moves := wMoves [.offer (.byte 0x12)]
    IsRun r moves ∧ FairIn r moves ∧ (r 0).rx = .byte 0x3F :: [] := by
  refine ⟨fun n => ?_, fun n h => ?_, by rfl⟩
  · match n with
    | 0 | 1 | 2 => rfl
    | _ + 3 => rfl
  · exact absurd (h (n + 3) (by omega)) Bool.false_ne_true

/-- A block that waits while the host schedules, and a drained Read transfer. -/
theorem witness_ProgressRestsOnInputAndFairness :
    (let r := wRun [State.reset] (withEnv [.inbound] [] State.reset)
     let moves := wMoves [.schedule .inbound]
     IsRun r moves ∧ (r 0).rx = [] ∧ (r 0).xs.kind ≠ .reading ∧ (∀ k item, 0 ≤ k → k < 2 → moves k ≠ .offer item)) ∧
    (wDrained.halt = .none ∧ wDrained.xs.kind = .reading ∧ wDrained.cnt = 0 ∧ wDrained.rx = [] ∧
      wDrained.sched = []) := by
  refine ⟨⟨fun n => ?_, by rfl, by decide, fun k item _ hk => ?_⟩, by decide⟩
  · match n with
    | 0 => rfl
    | _ + 1 => rfl
  · match k with
    | 0 => exact fun h => nomatch h
    | _ + 1 => exact fun h => nomatch h

end Sys2Proof.Tests
end

section
/-! PROOFS. Which agent moves (00_scope.md R11; 60_exceptions.md R118). -/

namespace Sys2Proof.Machine

/-- The block waits exactly when neither agent has an enabled step (00_scope.md R11). -/
theorem nextAgent_eq_none_iff (s : State) :
    nextAgent s = none ↔ inEnabled s = false ∧ sndEnabled s = false := by
  unfold nextAgent
  cases inEnabled s <;> cases sndEnabled s <;> simp

/-- Where both agents may move, the choice decides (log 3). -/
theorem nextAgent_of_both_enabled {s : State} (hi : inEnabled s = true) (hs : sndEnabled s = true) :
    nextAgent s = some (turn s) := by
  simp only [nextAgent, hi, hs]

@[simp] theorem turn_of_sched_cons (a : Config.Agent) (sched : List Config.Agent) (s : State) :
    turn { s with sched := a :: sched } = a := rfl

@[simp] theorem inEnabled_of_sched (sched : List Config.Agent) (s : State) :
    inEnabled { s with sched := sched } = inEnabled s := rfl

@[simp] theorem sndEnabled_of_sched (sched : List Config.Agent) (s : State) :
    sndEnabled { s with sched := sched } = sndEnabled s := rfl

/-- Waiting changes no state (log 6). -/
theorem step_of_nextAgent_none {s : State} (h : nextAgent s = none) : step s = .next s := by
  simp only [step, h]

/-- Settles O56: a mover's guard holds by the inversion lemmas of `nextAgent`; the enabled guards read nothing of `sched`, so a
choice put at its head decides between two enabled agents. -/
theorem anyEnabledAgentMayMove : Obligations.AnyEnabledAgentMayMove := by
  refine ⟨fun s h => (inEnabled_iff s).2 (nextAgent_inbound h), fun s h => (sndEnabled_iff s).2 (nextAgent_sender h),
    nextAgent_eq_none_iff, fun s a hi hs => ?_, fun _ => step_of_nextAgent_none⟩
  have hboth : nextAgent { s with sched := a :: s.sched } = some (turn { s with sched := a :: s.sched }) :=
    nextAgent_of_both_enabled (by rwa [inEnabled_of_sched]) (by rwa [sndEnabled_of_sched])
  rwa [turn_of_sched_cons] at hboth

end Sys2Proof.Machine
end

section
/-! PROOFS. What each kind of step leaves as it was (10_state.md R18, R19, R23, R27, R29, R32): an equation for each agent and
each use of a byte, from which the frames below are read off. -/

namespace Sys2Proof.Machine

/-- The fields that a completed word may change in the state it runs in (41_transfer.md R82). -/
theorem WordEffect.frame {w : Word48} {u t : State} (h : WordEffect w u t) :
    { t with xs := u.xs, halt := u.halt, memLive := u.memLive, diag := u.diag } = u := by
  cases h <;> rfl

/-- Only a READ or a WRITE word changes the transfer state (41_transfer.md R85, R86). -/
theorem WordEffect.of_xs_ne {w : Word48} {u t : State} (h : WordEffect w u t) (hx : t.xs ≠ u.xs) :
    ∃ a l, decodeWord w = .read a l ∨ decodeWord w = .write a l := by
  cases h with
  | read hh => exact ⟨wordAddr w, wordLen w, .inl (by simp [decodeWord, hh])⟩
  | write hh => exact ⟨wordAddr w, wordLen w, .inr (by simp [decodeWord, hh])⟩
  | readViolation => exact absurd rfl hx
  | writeNothing => exact absurd rfl hx
  | writeViolation => exact absurd rfl hx
  | stop => exact absurd rfl hx
  | rsvd00 => exact absurd rfl hx

/-- The kinds of step, with the fields each may change; beyond them the next state is the old one. -/
inductive StepKind (s t : State) : Prop where
  | waits (hn : nextAgent s = none) (ht : t = s)
  | failure (item : RxItem) (rest : List RxItem) (hn : nextAgent s = some .inbound) (hr : s.rx = item :: rest)
      (ht : { t with halt := s.halt, memLive := s.memLive, diag := s.diag,
                     sched := s.sched, draws := s.draws } = { s with rx := rest })
  | decoder (b : Byte) (rest : List RxItem) (hb : ByteIsNext b rest s) (hx : s.xs.kind ≠ .writing)
      (ht : { t with acc := s.acc, cnt := s.cnt, stopPending := s.stopPending, xs := s.xs, halt := s.halt,
                     memLive := s.memLive, diag := s.diag, sched := s.sched, draws := s.draws } = { s with rx := rest })
  | payload (b : Byte) (rest : List RxItem) (hb : ByteIsNext b rest s) (hx : s.xs.kind = .writing)
      (ht : { t with mem := s.mem, xs := s.xs, diag := s.diag,
                     sched := s.sched, draws := s.draws } = { s with rx := rest })
  | sender (hn : nextAgent s = some .sender) (hx : s.xs.kind = .reading)
      (ht : { t with xs := s.xs, tx := s.tx, diag := s.diag, halt := s.halt, memLive := s.memLive,
                     txAnswers := s.txAnswers, sched := s.sched, draws := s.draws } = s)

/-- Every step is of one of the five kinds. -/
theorem step_kind {s t : State} (h : step s = .next t) : StepKind s t := by
  cases step_transition h with
  | waits hn => exact .waits hn rfl
  | eos rest hn _ hr => exact .failure _ rest hn hr rfl
  | rxFail rest hn _ hr => exact .failure _ rest hn hr rfl
  | filler b rest hb _ hx => exact .decoder b rest hb hx rfl
  | accumulates b rest hb _ hx => exact .decoder b rest hb hx rfl
  | word b rest t hb _ hx _ he =>
    exact .decoder b rest hb hx
      (congrArg (fun u : State => { u with acc := s.acc, cnt := s.cnt, sched := s.sched, draws := s.draws,
                                           stopPending := s.stopPending }) he.frame)
  | stores b rest base expected written hb _ hx => exact .payload b rest hb (by rw [hx]; rfl) rfl
  | discards b rest base expected written hb _ hx => exact .payload b rest hb (by rw [hx]; rfl) rfl
  | emitsNothing base length hn _ hx => exact .sender hn (by rw [hx]; rfl) rfl
  | emitsOutOfRange base length hn _ hx => exact .sender hn (by rw [hx]; rfl) rfl
  | emits base length hn _ hx => exact .sender hn (by rw [hx]; rfl) rfl
  | emitFails base length k hn _ hx => exact .sender hn (by rw [hx]; rfl) rfl
  | clears base length hn _ hx => exact .sender hn (by rw [hx]; rfl) rfl

/-- A step of the sender changes only the transfer state, the output, the reports, the end and the scheduling fields
(10_state.md R29). -/
theorem sender_frame {s t : State} (hn : nextAgent s = some .sender) (h : step s = .next t) :
    { t with xs := s.xs, tx := s.tx, diag := s.diag, halt := s.halt, memLive := s.memLive,
             txAnswers := s.txAnswers, sched := s.sched, draws := s.draws } = s := by
  cases step_kind h with
  | waits hw => cases hn.symm.trans hw
  | failure _ _ hw => cases hn.symm.trans hw
  | decoder _ _ hb => cases hn.symm.trans hb.1
  | payload _ _ hb => cases hn.symm.trans hb.1
  | sender _ _ ht => exact ht

/-- No step changes a parameter (10_state.md R32). -/
theorem step_cfg {s t : State} (h : step s = .next t) : t.cfg = s.cfg := by
  cases step_kind h with
  | waits _ ht => rw [ht]
  | failure _ _ _ _ ht => exact (congrArg State.cfg ht :)
  | decoder _ _ _ _ ht => exact (congrArg State.cfg ht :)
  | payload _ _ _ _ ht => exact (congrArg State.cfg ht :)
  | sender _ _ ht => exact (congrArg State.cfg ht :)

end Sys2Proof.Machine
end

section
/-! PROOFS. The invariant holds at every launch and every step keeps it (10_state.md R17, R19, R21, R26; 40_decoder.md R78,
R80; 60_exceptions.md R104). First one lemma for each way a step changes the state, then the steps as chains of these. -/

namespace Sys2Proof.Machine

/-! ### The accumulator's clauses as arithmetic -/

/-- A byte shifted into an accumulator that has room drops no set bit (40_decoder.md R75). -/
theorem shiftIn_toNat_of_room {acc : Word48} (b : Byte) (h : acc.toNat < 2 ^ 40) :
    (shiftIn acc b).toNat = acc.toNat * 256 + b.toNat := by
  have hb := b.isLt
  rw [shiftIn_toNat]
  omega

/-- A word is a Stop word exactly when the five bytes before its last are at least `C0 00 00 00 00`. -/
theorem wordHdr_shiftIn_eq_three {acc : Word48} (b : Byte) (h : acc.toNat < 2 ^ 40) :
    wordHdr (shiftIn acc b) = 0b11#2 ↔ 3 * 2 ^ 38 ≤ acc.toNat := by
  have hb := b.isLt
  rw [← BitVec.toNat_inj, wordHdr_toNat, shiftIn_toNat_of_room b h]
  simp only [BitVec.toNat_ofNat]
  omega

theorem stopNotice_eq_true (b : Byte) (s : State) :
    stopNotice b s = true ↔ s.stopPending = true ∨ (s.cnt = 0 ∧ 192 ≤ b.toNat) := by
  simp [stopNotice, byteTag_eq_three]

theorem paramsOk_iff (p : Config.Params) :
    paramsOk p = true ↔
      p.memSize ≤ 2 ^ 63 - 1 ∧ Memory.wf p.memInit = true ∧ Memory.inside p.memSize p.memInit = true ∧
        p.exitFatal ≠ 0 := by
  simp [paramsOk, and_assoc]

/-! ### The transfer registers -/

theorem transferOk_afterPayload {base : Addr} {expected written : Count}
    (h : transferOk (.writing base expected written)) : transferOk (afterPayload base expected written) := by
  obtain ⟨hpos, hmax, hlt⟩ := h
  have hnext := nextWritten_toNat hlt
  unfold afterPayload
  split
  · trivial
  · next hne =>
    have : (nextWritten written).toNat ≠ expected.toNat := fun he => hne (BitVec.eq_of_toNat_eq he)
    exact ⟨hpos, hmax, by omega⟩

theorem transferOk_writing_start (a : Addr) {l : Len} (hl : l ≠ 0#14) : transferOk (.writing a (lenCount l) 0#16) := by
  have hmax := l.isLt
  have hne : l.toNat ≠ 0 := fun h => hl (BitVec.eq_of_toNat_eq h)
  refine ⟨?_, ?_, ?_⟩ <;> rw [lenCount_toNat]
  · omega
  · omega
  · exact Nat.pos_of_ne_zero hne

theorem transferOk_reading_start (a : Addr) (l : Len) : transferOk (.reading a (lenCount l) false) := by
  have hmax := l.isLt
  change (lenCount l).toNat ≤ 16383
  rw [lenCount_toNat]
  omega

/-! ### What keeps the invariant -/

namespace BlockInv

/-- No clause speaks of the ports and the scheduling fields. -/
theorem ports {s : State} (h : BlockInv s) (tx : List Byte) (rx : List RxItem) (answers : List Config.TxAnswer)
    (sched : List Config.Agent) (draws : Nat) :
    BlockInv { s with tx := tx, rx := rx, txAnswers := answers, sched := sched, draws := draws } :=
  { h with }

theorem taken {s : State} (h : BlockInv s) (rest : List RxItem) : BlockInv (taken rest s) := h.ports ..

theorem advance {s : State} (h : BlockInv s) : BlockInv (advance s) := h.ports ..

theorem setXs {s : State} (h : BlockInv s) {xs : TransferState} (hok : transferOk xs)
    (hb : xs.kind = .writing → s.cnt = 0 ∧ s.acc = 0#48) : BlockInv { s with xs := xs } :=
  { h with xs_ok := hok, writing_boundary := hb }

theorem transferOk_after {s : State} (h : BlockInv s) {base : Addr} {expected written : Count}
    (hx : s.xs = .writing base expected written) : transferOk (afterPayload base expected written) :=
  transferOk_afterPayload (hx ▸ h.xs_ok)

theorem transferOk_drained {s : State} (h : BlockInv s) {base : Addr} {length : Count} {drained : Bool}
    (hx : s.xs = .reading base length drained) : transferOk (.reading base length true) := by
  have hok := h.xs_ok
  rwa [hx] at hok

theorem boundary_of_writing {s : State} (h : BlockInv s) {base : Addr} {expected written : Count}
    (hx : s.xs = .writing base expected written) : s.cnt = 0 ∧ s.acc = 0#48 :=
  h.writing_boundary (by rw [hx]; rfl)

theorem setMem {s : State} (h : BlockInv s) {off : Nat} (hr : off + 1 ≤ s.cfg.memSize) (b : Byte) :
    BlockInv { s with mem := Memory.write s.mem off b } :=
  { h with mem_wf := Memory.write_wf h.mem_wf off b, mem_inside := Memory.inside_write h.mem_inside hr b }

theorem reportOutOfRange {s : State} (h : BlockInv s) (op : AccessOp) (off n : Nat) :
    BlockInv (reportOutOfRange op off n s) :=
  { h with diag_ok := by simp [h.diag_ok, Diag.fatalCause] }

/-- While communication is active no fatal condition has been reported. -/
theorem no_fatal_report {s : State} (h : BlockInv s) (hh : s.halt = .none) :
    s.diag.filterMap Diag.fatalCause = [] := by
  rw [h.diag_ok, hh]
  rfl

theorem raiseFatal {s : State} (h : BlockInv s) (hh : s.halt = .none) {k : Cause} (hk : k.isFatal = true)
    (info : FatalInfo) : BlockInv (raiseFatal k info s) :=
  { h with
    stop_iff := nofun
    stop_noticed := nofun
    live_iff := by simp
    diag_ok := by simp [h.no_fatal_report hh, Diag.fatalCause, Halt.fatalCause]
    halt_fatal := fun k' hk' => by cases hk'; exact hk }

/-- STOP runs after its notice (41_transfer.md R89). -/
theorem stopped {s : State} (h : BlockInv s) (hh : s.halt = .none) (hs : s.stopPending = true) :
    BlockInv { s with halt := .stopped, memLive := false } :=
  { h with
    stop_iff := nofun
    stop_noticed := fun _ => hs
    live_iff := by simp
    diag_ok := h.no_fatal_report hh
    halt_fatal := nofun }

/-- Between steps the accumulator has room for one more byte (10_state.md R17). -/
theorem acc_room {s : State} (h : BlockInv s) : s.acc.toNat < 2 ^ 40 :=
  h.acc_lt.trans_le (Nat.pow_le_pow_right (by omega) (by have := h.cnt_le; omega))

/-- With five bytes accumulated the stop notice tells a Stop word from the others (10_state.md R19). -/
theorem stopPending_iff_wordHdr {s : State} (h : BlockInv s) (hh : s.halt = .none) (hc : s.cnt = 5) (b : Byte) :
    s.stopPending = true ↔ wordHdr (shiftIn s.acc b) = 0b11#2 := by
  rw [wordHdr_shiftIn_eq_three b h.acc_room, h.stop_iff hh, hc]
  simp

/-- A byte that begins a word, or goes on with one, keeps the two clauses that bound the accumulator from below (40_decoder.md
R74, R75, R78): they compare it with the same multiple of its first byte's place. -/
theorem accumulate_lower_bounds {s : State} (h : BlockInv s) (hh : s.halt = .none) {b : Byte}
    (hf : ¬ (s.cnt = 0 ∧ byteTag b = 0b00#2)) :
    2 ^ (8 * (s.cnt + 1) - 2) ≤ s.acc.toNat * 256 + b.toNat ∧
      (stopNotice b s = true ↔ 3 * 2 ^ (8 * (s.cnt + 1) - 2) ≤ s.acc.toNat * 256 + b.toNat) := by
  have hlt := h.acc_lt
  have hfirst := h.acc_first
  have hstop := h.stop_iff hh
  have hb := b.isLt
  rw [stopNotice_eq_true, hstop]
  rw [byteTag_eq_zero] at hf
  cases hc : s.cnt with
  | zero =>
    have hempty : s.acc.toNat = 0 := by rw [hc] at hlt; omega
    simp only [hempty, lt_self_iff_false, false_and, false_or, true_and, and_true, zero_add, zero_mul, Nat.reduceMul,
      Nat.reduceSub, Nat.reducePow]
    omega
  | succ n =>
    rw [hc] at hfirst
    have hplace : 8 * (n + 1 + 1) - 2 = 8 * (n + 1) - 2 + 8 := by omega
    rw [hplace, Nat.pow_add]
    omega

/-- A byte taken into the accumulator, short of the sixth (40_decoder.md R74, R75). -/
theorem accumulate {s : State} (h : BlockInv s) (hh : s.halt = .none) (hx : s.xs.kind ≠ .writing) {b : Byte}
    (hf : ¬ (s.cnt = 0 ∧ byteTag b = 0b00#2)) (hc : s.cnt ≠ 5) : BlockInv (accumulate b s) := by
  have hle := h.cnt_le
  have hlt := h.acc_lt
  have hb := b.isLt
  have hacc := shiftIn_toNat_of_room b h.acc_room
  obtain ⟨hfirst, hstop⟩ := h.accumulate_lower_bounds hh hf
  rw [← hacc] at hfirst hstop
  exact { h with
    cnt_le := by rw [accumulate_cnt]; omega
    acc_lt := by rw [accumulate_acc, accumulate_cnt, hacc, Nat.mul_add, Nat.pow_add]; omega
    acc_first := fun _ => hfirst
    stop_iff := fun _ => hstop.trans ⟨fun hge => ⟨Nat.succ_pos s.cnt, hge⟩, And.right⟩
    stop_noticed := fun hst => by simp [hh] at hst
    writing_boundary := fun hw => absurd hw hx }

/-- The accumulator may be reset where no notice stands, or once communication has ended (40_decoder.md R76). -/
theorem resetAcc {s : State} (h : BlockInv s) (hx : s.xs.kind ≠ .writing)
    (hs : s.halt = .none → s.stopPending ≠ true) : BlockInv { s with acc := 0#48, cnt := 0 } :=
  { h with
    cnt_le := Nat.zero_le 5
    acc_lt := by simp
    acc_first := nofun
    stop_iff := fun hh => iff_of_false (hs hh) nofun
    writing_boundary := fun hw => absurd hw hx }

end BlockInv

/-- A completed word keeps the invariant: STOP has had its notice, and every other word runs with no notice standing. -/
theorem WordEffect.blockInv {s t : State} {b : Byte} {rest : List RxItem}
    (he : WordEffect (shiftIn s.acc b) (atWord rest s) t) (h : BlockInv s) (hh : s.halt = .none)
    (hx : s.xs.kind ≠ .writing) (hc : s.cnt = 5) : BlockInv t := by
  have hstop := h.stopPending_iff_wordHdr hh hc b
  have hother : wordHdr (shiftIn s.acc b) ≠ 0b11#2 → BlockInv (atWord rest s) :=
    fun hw => (h.taken rest).resetAcc hx fun _ hs => hw (hstop.1 hs)
  cases he with
  | stop hw => exact ((h.taken rest).stopped hh (hstop.2 hw)).resetAcc hx nofun
  | read hw => exact (hother (by simp [hw])).setXs (transferOk_reading_start _ _) nofun
  | readViolation hw => exact (hother (by simp [hw])).raiseFatal hh rfl _
  | write hw _ hl => exact (hother (by simp [hw])).setXs (transferOk_writing_start _ hl) fun _ => ⟨rfl, rfl⟩
  | writeNothing hw => exact hother (by simp [hw])
  | writeViolation hw => exact (hother (by simp [hw])).raiseFatal hh rfl _
  | rsvd00 hw => exact hother (by simp [hw])

/-- Settles O52: each way a step answers a next state is a chain of the changes that keep the invariant. -/
theorem everyStepKeepsTheInvariant : Obligations.EveryStepKeepsTheInvariant := by
  intro s t h hstep
  cases step_transition hstep with
  | waits => exact h
  | eos rest _ hh => exact (h.taken rest).raiseFatal hh rfl _
  | rxFail rest _ hh => exact (h.taken rest).raiseFatal hh rfl _
  | filler b rest => exact h.taken rest
  | accumulates b rest _ hh hx hf hc => exact (h.taken rest).accumulate hh hx hf hc
  | word b rest t _ hh hx hc he => exact he.blockInv h hh hx hc
  | stores b rest base expected written _ _ hx _ hr =>
    exact ((h.taken rest).setMem hr b).setXs (h.transferOk_after hx) fun _ => h.boundary_of_writing hx
  | discards b rest base expected written _ _ hx =>
    exact ((h.taken rest).reportOutOfRange _ _ _).setXs (h.transferOk_after hx) fun _ => h.boundary_of_writing hx
  | emitsNothing base length _ _ hx => exact h.advance.setXs (h.transferOk_drained hx) nofun
  | emitsOutOfRange base length _ _ hx =>
    exact (h.advance.reportOutOfRange _ _ _).setXs (h.transferOk_drained hx) nofun
  | emits base length _ _ hx => exact (h.advance.setXs (h.transferOk_drained hx) nofun).ports ..
  | emitFails base length k _ hh => exact (h.advance.raiseFatal hh rfl _).ports ..
  | clears => exact h.advance.setXs trivial nofun

/-- A launch with parameters in their ranges meets the invariant, allocation failed or not (10_state.md R33). -/
theorem blockInv_launch {p : Config.Params} (h : paramsOk p = true) : BlockInv (State.launch p) := by
  obtain ⟨_, hwf, hinside, _⟩ := (paramsOk_iff p).1 h
  exact {
    cnt_le := Nat.zero_le 5
    acc_lt := by simp [State.launch]
    acc_first := nofun
    stop_iff := fun _ => iff_of_false nofun nofun
    stop_noticed := by cases ha : p.allocOk <;> simp [State.launch, ha]
    xs_ok := trivial
    writing_boundary := nofun
    live_iff := by cases ha : p.allocOk <;> simp [State.launch, ha]
    mem_wf := by
      cases ha : p.allocOk
      case true => simpa [State.launch, ha] using hwf
      case false => simp [State.launch, ha, Memory.wf, Memory.wfFrom]
    mem_inside := by
      cases ha : p.allocOk
      case true => simpa [State.launch, ha] using hinside
      case false => simp [State.launch, ha, Memory.inside]
    diag_ok := by cases ha : p.allocOk <;> simp [State.launch, ha, Halt.fatalCause, Diag.fatalCause]
    halt_fatal := by cases ha : p.allocOk <;> simp [State.launch, ha, Cause.isFatal]
    params_ok := h }

/-- Settles O51: `State.reset` is the launch of the default parameters, which are in their ranges. -/
theorem launchMeetsTheInvariant : Obligations.LaunchMeetsTheInvariant :=
  ⟨fun _ => blockInv_launch, blockInv_launch (by decide)⟩

end Sys2Proof.Machine
end

section
/-! PROOFS. The statements of 10_state.md about which step may change which part of the state, and about launch and end. -/

namespace Sys2Proof.Machine

/-- What a step does to the stop notice: it stays, or the first byte of a word sets it (10_state.md R19). -/
theorem step_stopPending {s t : State} (h : step s = .next t) :
    t.stopPending = s.stopPending ∨
      ∃ b rest, ByteIsNext b rest s ∧ s.xs.kind ≠ .writing ∧ t.stopPending = stopNotice b s := by
  cases step_transition h with
  | accumulates b rest hb _ hx => exact .inr ⟨b, rest, hb, hx, rfl⟩
  | word b rest t _ _ _ _ he => exact .inl (congrArg State.stopPending he.frame :)
  | _ => exact .inl rfl

/-- The first byte of a Stop word sets the notice (40_decoder.md R74). -/
theorem stopPending_of_first_byte {s t : State} {b : Byte} {rest : List RxItem} (h : step s = .next t)
    (hb : ByteIsNext b rest s) (hx : s.xs.kind ≠ .writing) (hc : s.cnt = 0) (hge : 192 ≤ b.toNat) :
    t.stopPending = true := by
  rw [step_decoder hb hx] at h
  rcases decodeByte_cases b (taken rest s) with ⟨_, ht, _⟩ | ⟨_, _, he⟩ | ⟨_, h5, _⟩
  · rw [byteTag_eq_zero] at ht
    omega
  · rw [he] at h
    cases h
    exact (stopNotice_eq_true b (taken rest s)).2 (.inr ⟨hc, hge⟩)
  · have : s.cnt = 5 := h5
    omega

/-- Settles O9: no step but that of a word's first byte writes the notice, and that one only sets it. -/
theorem stopNoticeIsSetByFirstByteOnly : Obligations.StopNoticeIsSetByFirstByteOnly := by
  intro s t h
  constructor
  · intro ht
    rcases step_stopPending h with he | ⟨b, rest, hb, hx, he⟩
    · exact .inl (he ▸ ht)
    · exact ((stopNotice_eq_true b s).1 (he ▸ ht)).imp_right fun ⟨hc, hge⟩ => ⟨b, rest, hb, hx, hc, hge⟩
  · rintro (hs | ⟨b, rest, hb, hx, hc, hge⟩)
    · rcases step_stopPending h with he | ⟨b, _, _, _, he⟩
      · exact he.trans hs
      · exact he.trans ((stopNotice_eq_true b s).2 (.inl hs))
    · exact stopPending_of_first_byte h hb hx hc hge

/-- Both clauses of 10_state.md R27 about a step, where it is one of `IN`. -/
theorem head_is_taken {s t : State} {item : RxItem} {rest : List RxItem} (hn : nextAgent s = some .inbound)
    (hr : s.rx = item :: rest) (ht : t.rx = rest) :
    (nextAgent s = some .inbound → ∃ item, s.rx = item :: t.rx) ∧ (nextAgent s ≠ some .inbound → t.rx = s.rx) :=
  ⟨fun _ => ⟨item, ht ▸ hr⟩, fun hne => absurd hn hne⟩

/-- Settles O14: of the kinds of step those of `IN`, and only those, take an item, the head of the stream. -/
theorem inputIsTakenInOrder : Obligations.InputIsTakenInOrder := by
  refine ⟨fun s hr hn => ?_, fun s t h => ?_, fun s item => ⟨rfl, rfl⟩⟩
  · obtain ⟨_, item, rest, hcons⟩ := nextAgent_inbound hn
    cases hr.symm.trans hcons
  · cases step_kind h with
    | waits hn ht => exact ⟨fun hi => (by cases hn.symm.trans hi), fun _ => congrArg State.rx ht⟩
    | failure item rest hn hr ht => exact head_is_taken hn hr (congrArg State.rx ht :)
    | decoder b rest hb _ ht => exact head_is_taken hb.1 hb.2 (congrArg State.rx ht :)
    | payload b rest hb _ ht => exact head_is_taken hb.1 hb.2 (congrArg State.rx ht :)
    | sender hn _ ht => exact ⟨fun hi => (by cases hn.symm.trans hi), fun _ => (congrArg State.rx ht :)⟩

/-- Settles O30: of the kinds of step only a payload byte changes the memory, and its store changes one offset. -/
theorem onlyPayloadBytesChangeMemory : Obligations.OnlyPayloadBytesChangeMemory := by
  intro s t a hwf h hne
  have hmem : t.mem ≠ s.mem := fun he => hne (congrArg (Memory.read · a) he)
  cases step_kind h with
  | waits _ ht => exact absurd (congrArg State.mem ht) hmem
  | failure _ _ _ _ ht => exact absurd (congrArg State.mem ht :) hmem
  | decoder _ _ _ _ ht => exact absurd (congrArg State.mem ht :) hmem
  | sender _ _ ht => exact absurd (congrArg State.mem ht :) hmem
  | payload b rest hb hx =>
    rw [step_payload hb hx] at h
    obtain ⟨base, expected, written, hw, _, ⟨hr, rfl⟩ | ⟨_, rfl⟩⟩ := execData_cases h
    · have ha : a = payloadOffset base written := by
        by_contra hother
        exact hne (Memory.read_write_other s.mem hother b)
      exact ⟨b, rest, base, expected, written, hb, hw, ha, by rw [ha]; exact hr,
        by rw [ha]; exact Memory.read_write_same hwf _ b⟩
    · exact absurd rfl hmem

/-- Settles O39: the memory is among the fields the sender leaves alone. -/
theorem senderFrame : Obligations.SenderFrame := by
  intro s t hn h
  have ht := sender_frame hn h
  have hmem : t.mem = s.mem := (congrArg State.mem ht :)
  exact ⟨ht, fun a => congrArg (Memory.read · a) hmem⟩

/-- The decoder changes the transfer state only with the sixth byte of a READ or a WRITE word (10_state.md R23). -/
theorem decodeByte_of_xs_ne {b : Byte} {s t : State} (h : decodeByte b s = .next t) (hx : t.xs ≠ s.xs) :
    s.cnt = 5 ∧ ∃ a l, decodeWord (shiftIn s.acc b) = .read a l ∨ decodeWord (shiftIn s.acc b) = .write a l := by
  rcases decodeByte_cases b s with ⟨_, _, he⟩ | ⟨_, _, he⟩ | ⟨_, hc, he⟩
  · cases he.symm.trans h
    exact absurd rfl hx
  · cases he.symm.trans h
    exact absurd rfl hx
  · obtain ⟨t', ht', hw⟩ := exec_decodeWord (shiftIn s.acc b) (clearAcc (accumulate b s))
    cases (he.trans ht').symm.trans h
    exact ⟨hc, hw.of_xs_ne hx⟩

/-- Settles O47: of the completed words only READ and WRITE change the transfer state; the other changes are those of a
payload byte and of the sender. -/
theorem onlyTheseStepsChangeTheTransferState : Obligations.OnlyTheseStepsChangeTheTransferState := by
  intro s t h hne
  cases step_kind h with
  | waits _ ht => exact absurd (congrArg State.xs ht) hne
  | failure _ _ _ _ ht => exact absurd (congrArg State.xs ht :) hne
  | payload b rest hb hx => exact .inr (.inl ⟨b, rest, hb, hx⟩)
  | sender hn hx => exact .inr (.inr ⟨hn, hx⟩)
  | decoder b rest hb hx =>
    rw [step_decoder hb hx] at h
    obtain ⟨hc, a, l, hw⟩ := decodeByte_of_xs_ne h hne
    exact .inl ⟨b, rest, a, l, hb, hx, hc, hw⟩

/-- Settles O45: the guards of both agents ask for active communication. -/
theorem endedCommunicationIsTerminal : Obligations.EndedCommunicationIsTerminal := by
  intro s hh
  have hin : inEnabled s = false := Bool.eq_false_iff.2 fun h => hh ((inEnabled_iff s).1 h).1
  have hsnd : sndEnabled s = false := Bool.eq_false_iff.2 fun h => hh ((sndEnabled_iff s).1 h).1
  have hnone : nextAgent s = none := (nextAgent_eq_none_iff s).2 ⟨hin, hsnd⟩
  exact ⟨hin, hsnd, hnone, step_of_nextAgent_none hnone⟩

/-- Settles O50: every field is read off the launch; with the stream empty and the engine Idle no agent moves. -/
theorem launchLeavesTheResetValues : Obligations.LaunchLeavesTheResetValues := by
  intro p hp
  have hmem : (State.launch p).mem = p.memInit := by simp [State.launch, hp]
  have hnone : nextAgent (State.launch p) = none :=
    (nextAgent_eq_none_iff _).2 ⟨by simp [inEnabled, State.launch], by simp [sndEnabled, State.launch, TransferState.kind]⟩
  exact ⟨rfl, rfl, rfl, rfl, by simp [State.launch, hp], hp, fun a => by rw [byteAt, hmem],
    by simp [State.launch, hp], rfl, rfl, rfl, step_of_nextAgent_none hnone⟩

end Sys2Proof.Machine
end

section
/-! PROOFS. The fields that steps do not read (10_state.md R18, R19; 60_exceptions.md R117): changing them commutes with each
operation. The accumulator and its count are read by the decoder alone, the stop notice and `VERBOSE` by nothing. -/

namespace Sys2Proof.Machine

/-! ### Outcomes -/

theorem mapNext_comp (f g : State → State) (o : Host.Outcome State Fault Refusal) :
    mapNext g (mapNext f o) = mapNext (g ∘ f) o := by
  cases o <;> rfl

@[simp] theorem mapNext_id (o : Host.Outcome State Fault Refusal) : mapNext id o = o := by
  cases o <;> rfl

/-! ### The four fields -/

/-- The state with the accumulator, its count, the stop notice and `VERBOSE` changed. -/
def changeUnread (fa : Word48 → Word48) (fc : Nat → Nat) (fp fv : Bool → Bool) (s : State) : State :=
  { s with acc := fa s.acc, cnt := fc s.cnt, stopPending := fp s.stopPending,
           cfg := { s.cfg with verbose := fv s.cfg.verbose } }

section
variable (fa : Word48 → Word48) (fc : Nat → Nat) (fp fv : Bool → Bool) (s : State)

@[simp] theorem changeUnread_xs : (changeUnread fa fc fp fv s).xs = s.xs := rfl
@[simp] theorem changeUnread_memLive : (changeUnread fa fc fp fv s).memLive = s.memLive := rfl
@[simp] theorem changeUnread_mem : (changeUnread fa fc fp fv s).mem = s.mem := rfl
@[simp] theorem changeUnread_memSize : (changeUnread fa fc fp fv s).cfg.memSize = s.cfg.memSize := rfl
@[simp] theorem nextAgent_changeUnread : nextAgent (changeUnread fa fc fp fv s) = nextAgent s := rfl

/-! ### The operations that read none of the four -/

theorem execData_changeUnread (b : Byte) :
    execData b (changeUnread fa fc fp fv s) = mapNext (changeUnread fa fc fp fv) (execData b s) := by
  cases hx : s.xs with
  | idle => simp [execData, hx, mapNext]
  | reading => simp [execData, hx, mapNext]
  | writing base expected written =>
    by_cases hl : s.memLive = true
    · by_cases hr : payloadOffset base written + 1 ≤ s.cfg.memSize
      · rw [execData_inRange hx hl hr, execData_inRange (s := changeUnread fa fc fp fv s) hx hl hr]
        rfl
      · rw [execData_outOfRange hx hl hr, execData_outOfRange (s := changeUnread fa fc fp fv s) hx hl hr]
        rfl
    · simp [execData, hx, memWrite, hl, mapNext]

/-- No instruction reads them: the accumulator is reset before a word runs (40_decoder.md R76). -/
theorem exec_changeUnread (i : Instr) :
    exec i (changeUnread fa fc fp fv s) = mapNext (changeUnread fa fc fp fv) (exec i s) := by
  cases i with
  | read a l =>
    by_cases hx : s.xs = .idle <;> simp [exec, execRead, hx] <;> rfl
  | write a l =>
    by_cases hx : s.xs = .idle
    · by_cases hl : l = 0#14 <;> simp [exec, execWrite, hx, hl] <;> rfl
    · simp [exec, execWrite, hx]
      rfl
  | stop => rfl
  | rsvd00 => rfl
  | fill => rfl
  | data b => exact execData_changeUnread fa fc fp fv s b

theorem emitReply_changeUnread (base : Addr) (length : Count) (seq : List Byte) :
    emitReply base length seq (changeUnread fa fc fp fv s) =
      changeUnread fa fc fp fv (emitReply base length seq s) := by
  have ha : txAnswer (changeUnread fa fc fp fv s) = txAnswer s := rfl
  unfold emitReply
  rw [ha]
  cases txAnswer s <;> rfl

theorem sndEmit_changeUnread (base : Addr) (length : Count) :
    sndEmit base length (changeUnread fa fc fp fv s) = mapNext (changeUnread fa fc fp fv) (sndEmit base length s) := by
  by_cases hl : s.memLive = true
  · by_cases hr : baseOffset base + length.toNat ≤ s.cfg.memSize
    · unfold sndEmit
      rw [memRead_inRange hl hr, memRead_inRange (s := changeUnread fa fc fp fv s) hl hr, changeUnread_mem]
      cases spanBytes s.mem (baseOffset base) length.toNat with
      | nil => rfl
      | cons b seq => exact congrArg Host.Outcome.next (emitReply_changeUnread ..)
    · unfold sndEmit
      rw [memRead_outOfRange hl hr, memRead_outOfRange (s := changeUnread fa fc fp fv s) hl hr]
      rfl
  · simp [sndEmit, memRead, hl, mapNext]

/-- The sender reads none of them (10_state.md R18). -/
theorem sndStep_changeUnread :
    sndStep (changeUnread fa fc fp fv s) = mapNext (changeUnread fa fc fp fv) (sndStep s) := by
  unfold sndStep
  rw [changeUnread_xs]
  split
  · exact sndEmit_changeUnread ..
  · rfl
  · rfl
  · rfl

/-- A step of the sender reads none of them. -/
theorem step_sender_changeUnread (hn : nextAgent s = some .sender) :
    step (changeUnread fa fc fp fv s) = mapNext (changeUnread fa fc fp fv) (step s) := by
  simp only [step, nextAgent_changeUnread, hn]
  exact sndStep_changeUnread fa fc fp fv (advance s)

end

/-! ### The decoder's three cases as equations (40_decoder.md R73, R75, R76) -/

section
variable {b : Byte} {s : State}

theorem decodeByte_filler (h : s.cnt = 0 ∧ byteTag b = 0b00#2) : decodeByte b s = .next s := by
  rw [decodeByte, if_pos h]
  rfl

theorem decodeByte_accumulates (h : ¬ (s.cnt = 0 ∧ byteTag b = 0b00#2)) (hc : s.cnt ≠ 5) :
    decodeByte b s = .next (accumulate b s) := by
  rw [decodeByte, if_neg h, completeWord, if_neg (by rw [accumulate_cnt]; omega)]

theorem decodeByte_word (hc : s.cnt = 5) :
    decodeByte b s = exec (decodeWord (shiftIn s.acc b)) (clearAcc (accumulate b s)) := by
  rw [decodeByte, if_neg (by omega), completeWord, if_pos (by rw [accumulate_cnt, hc]), accumulate_acc]

end

/-- Beyond a word's first byte the decoder leaves the stop notice as it finds it. -/
theorem clearAcc_accumulate_changeUnread {b : Byte} {s : State} (fp fv : Bool → Bool) (hc : s.cnt ≠ 0) :
    clearAcc (accumulate b (changeUnread id id fp fv s)) =
      changeUnread id id fp fv (clearAcc (accumulate b s)) := by
  simp [clearAcc, accumulate, changeUnread, stopNotice, hc]

/-- A step of `IN` takes the head of the stream (40_decoder.md R71). -/
theorem step_inbound {s : State} {item : RxItem} {rest : List RxItem} (hn : nextAgent s = some .inbound)
    (hr : s.rx = item :: rest) : step s = takeItem item { advance s with rx := rest } := by
  simp [step, hn, inItem, hr]

/-! ### The stop notice and VERBOSE, which no step reads

The change `f` is made before the step, and `g` erases what the step itself wrote over it (`hg`). -/

section
variable {fp fv : Bool → Bool} {g : State → State}
  (hg : ∀ b s, g (accumulate b (changeUnread id id fp fv s)) = g (changeUnread id id fp fv (accumulate b s)))
include hg

theorem decodeByte_changeUnread (b : Byte) (s : State) :
    mapNext g (decodeByte b (changeUnread id id fp fv s)) = mapNext (g ∘ changeUnread id id fp fv) (decodeByte b s) := by
  by_cases hf : s.cnt = 0 ∧ byteTag b = 0b00#2
  · rw [decodeByte_filler hf, decodeByte_filler (s := changeUnread id id fp fv s) hf]
    rfl
  · by_cases hc : s.cnt = 5
    · rw [decodeByte_word hc, decodeByte_word (s := changeUnread id id fp fv s) hc,
        clearAcc_accumulate_changeUnread fp fv (by omega), exec_changeUnread, mapNext_comp]
      rfl
    · rw [decodeByte_accumulates hf hc, decodeByte_accumulates (s := changeUnread id id fp fv s) hf hc]
      exact congrArg Host.Outcome.next (hg b s)

theorem takeItem_changeUnread (item : RxItem) (s : State) :
    mapNext g (takeItem item (changeUnread id id fp fv s)) =
      mapNext (g ∘ changeUnread id id fp fv) (takeItem item s) := by
  cases item with
  | eos => rfl
  | fail => rfl
  | byte b =>
    by_cases hw : s.xs.kind = .writing
    · have hl := takeByte_payload (b := b) (s := changeUnread id id fp fv s) hw
      simp only [takeItem, hl, takeByte_payload hw, execData_changeUnread, mapNext_comp]
    · have hl := takeByte_decoder (b := b) (s := changeUnread id id fp fv s) hw
      simp only [takeItem, hl, takeByte_decoder hw, decodeByte_changeUnread hg]

theorem step_changeUnread (s : State) :
    mapNext g (step (changeUnread id id fp fv s)) = mapNext (g ∘ changeUnread id id fp fv) (step s) := by
  cases hn : nextAgent s with
  | none =>
    rw [step_of_nextAgent_none hn, step_of_nextAgent_none (s := changeUnread id id fp fv s) hn]
    rfl
  | some agent =>
    cases agent with
    | sender => rw [step_sender_changeUnread _ _ _ _ s hn, mapNext_comp]
    | inbound =>
      obtain ⟨_, item, rest, hr⟩ := nextAgent_inbound hn
      rw [step_inbound hn hr, step_inbound (s := changeUnread id id fp fv s) hn hr]
      exact takeItem_changeUnread hg item { advance s with rx := rest }

end

/-- Settles O54: erasing the notice after the step leaves nothing of what it was before. -/
theorem stopNoticeIsReadByNoStep : Obligations.StopNoticeIsReadByNoStep := fun s v =>
  step_changeUnread (fp := fun _ => v) (fv := id) (g := fun t => { t with stopPending := false }) (fun _ _ => rfl) s

/-- Settles O55: no kind of step changes a parameter, and the change of `VERBOSE` commutes with every operation. -/
theorem parametersAreConstantAndVerboseUnread : Obligations.ParametersAreConstantAndVerboseUnread := by
  refine ⟨fun _ _ => step_cfg, fun s v => ?_⟩
  have h := step_changeUnread (fp := id) (fv := fun _ => v) (g := id) (fun _ _ => rfl) s
  rwa [mapNext_id] at h

/-- Settles O38: the decoder is the one kind of step that changes the accumulator or its count; the sender reads neither. -/
theorem senderNeverTouchesTheAccumulator : Obligations.SenderNeverTouchesTheAccumulator := by
  refine ⟨fun s t h hne => ?_, fun s hn => ⟨fun t h => ?_, fun x n => ?_⟩⟩
  · have hchanged : ¬ (t.acc = s.acc ∧ t.cnt = s.cnt) := by tauto
    cases step_kind h with
    | decoder b rest hb hx => exact ⟨b, rest, hb, hx⟩
    | waits _ ht => exact absurd ⟨congrArg State.acc ht, congrArg State.cnt ht⟩ hchanged
    | failure _ _ _ _ ht => exact absurd ⟨(congrArg State.acc ht :), (congrArg State.cnt ht :)⟩ hchanged
    | payload _ _ _ _ ht => exact absurd ⟨(congrArg State.acc ht :), (congrArg State.cnt ht :)⟩ hchanged
    | sender _ _ ht => exact absurd ⟨(congrArg State.acc ht :), (congrArg State.cnt ht :)⟩ hchanged
  · have ht := sender_frame hn h
    exact ⟨(congrArg State.acc ht :), (congrArg State.cnt ht :)⟩
  · exact step_sender_changeUnread (fun _ => x) (fun _ => n) id id s hn

end Sys2Proof.Machine
end

section
/-! PROOFS. The memory port: what each access of 20_memory.md R42 to R47 answers, and memories that read alike. -/

namespace Sys2Proof.Machine

/-! ### The canonical form determines the contents (log 2) -/

/-- The first listed byte tells a canonical memory from every one that begins above it. -/
theorem Memory.read_head_ne {k k' : Nat} {v : Byte} (m : Memory) {n : Memory} (hv : v ≠ 0#8)
    (hn : Memory.wfFrom k' n = true) (hk : k < k') : Memory.read ((k, v) :: m) k ≠ Memory.read n k := by
  rw [Memory.read_cons, if_pos rfl, Memory.read_below hn hk]
  exact hv

theorem Memory.eq_of_read_eq {lo : Nat} {m n : Memory} (hm : Memory.wfFrom lo m = true) (hn : Memory.wfFrom lo n = true)
    (h : ∀ a, Memory.read m a = Memory.read n a) : m = n := by
  induction m generalizing lo n with
  | nil =>
    cases n with
    | nil => rfl
    | cons c n =>
      obtain ⟨k, v⟩ := c
      obtain ⟨_, hv, _⟩ := Memory.wfFrom_cons.1 hn
      exact absurd (h k).symm (Memory.read_head_ne n (k' := k + 1) hv rfl (by omega))
  | cons c m ih =>
    obtain ⟨k, v⟩ := c
    obtain ⟨hlo, hv, hm'⟩ := Memory.wfFrom_cons.1 hm
    cases n with
    | nil => exact absurd (h k) (Memory.read_head_ne m (k' := k + 1) hv rfl (by omega))
    | cons c' n =>
      obtain ⟨k', v'⟩ := c'
      obtain ⟨hlo', hv', hn'⟩ := Memory.wfFrom_cons.1 hn
      rcases Nat.lt_trichotomy k k' with hlt | rfl | hgt
      · exact absurd (h k) (Memory.read_head_ne m hv (Memory.wfFrom_cons.2 ⟨Nat.le_refl k', hv', hn'⟩) hlt)
      · have hvv : v = v' := by simpa [Memory.read_cons] using h k
        have htail : ∀ a, Memory.read m a = Memory.read n a := by
          intro a
          by_cases ha : k = a
          · rw [Memory.read_below hm' (by omega), Memory.read_below hn' (by omega)]
          · simpa [Memory.read_cons, ha] using h a
        rw [hvv, ih hm' hn' htail]
      · exact absurd (h k').symm (Memory.read_head_ne n hv' (Memory.wfFrom_cons.2 ⟨Nat.le_refl k, hv, hm'⟩) hgt)

/-- Settles O29: by induction along both lists, whose heads their reads determine. -/
theorem equalReadsAreEqualMemories : Obligations.EqualReadsAreEqualMemories :=
  fun _ _ => Memory.eq_of_read_eq

/-! ### One access -/

theorem getByte_inRange {off : Nat} {s : State} (hl : s.memLive = true) (hr : off + 1 ≤ s.cfg.memSize) :
    getByte off s = .ok (byteAt s off, s) := by
  simp [getByte, hl, inRange, hr]

theorem getByte_outOfRange {off : Nat} {s : State} (hl : s.memLive = true) (hr : ¬ off + 1 ≤ s.cfg.memSize) :
    getByte off s = .ok (0#8, reportOutOfRange .read off 1 s) := by
  simp [getByte, hl, inRange, hr]

/-- Settles O28: its ranges are those of the access of one byte. -/
theorem singleByteReadHasSentinel : Obligations.SingleByteReadHasSentinel :=
  fun _ _ hl => ⟨getByte_inRange hl, fun hge => getByte_outOfRange hl (Nat.not_lt.2 hge), rfl⟩

/-- Settles O26: the laws of `Memory.write` give the reads after the byte is stored. -/
theorem byteWriteStoresOrReports : Obligations.ByteWriteStoresOrReports := by
  intro s off b hl hwf
  constructor
  · intro hlt
    exact ⟨_, memWrite_inRange hl hlt, Memory.read_write_same hwf off b,
      fun _ hne => Memory.read_write_other s.mem hne b, Memory.write_wf hwf off b, rfl⟩
  · intro hge
    exact memWrite_outOfRange hl (Nat.not_lt.2 hge)

/-- Settles O27: a span in range is read byte by byte, any other not at all. -/
theorem spanReadIsAllOrNothing : Obligations.SpanReadIsAllOrNothing := by
  intro s off n hl
  constructor
  · intro hr
    refine ⟨_, memRead_inRange hl hr, spanBytes_length .., fun i hi => ?_⟩
    have hlen : i < (spanBytes s.mem off n).length := by rwa [spanBytes_length]
    rw [List.getElem?_eq_getElem hlen, spanBytes_getElem]
    rfl
  · intro hgt
    exact memRead_outOfRange hl (Nat.not_le.2 hgt)

/-! ### Released regions and reachable states -/

theorem memWrite_released {off : Nat} {b : Byte} {s : State} (hl : s.memLive = false) :
    memWrite off b s = .error (.useAfterRelease .write) := by
  simp [memWrite, hl]

theorem memRead_released {off n : Nat} {s : State} (hl : s.memLive = false) :
    memRead off n s = .error (.useAfterRelease .read) := by
  simp [memRead, hl]

theorem getByte_released {off : Nat} {s : State} (hl : s.memLive = false) :
    getByte off s = .error (.useAfterRelease .read) := by
  simp [getByte, hl]

/-- Under the invariant the region is live wherever an agent may move, so every step answers a next state
(20_memory.md R42). -/
theorem BlockInv.stepsOn {s : State} (h : BlockInv s) : StepsOn s := step_next s h.live_iff.2

/-- Settles O25: no step is a fault, since every step from a state with the invariant answers a next state. -/
theorem releasedRegionFaultsAndIsUnreachable : Obligations.ReleasedRegionFaultsAndIsUnreachable := by
  refine ⟨fun s off n b hl => ⟨memWrite_released hl, memRead_released hl, getByte_released hl⟩, fun s e h he => ?_⟩
  obtain ⟨t, ht⟩ := h.stepsOn
  cases ht.symm.trans he

/-- Every reachable state meets the invariant: no clause speaks of what the environment appends to. -/
theorem Reachable.blockInv {s : State} (h : Reachable s) : BlockInv s := by
  induction h with
  | launch p hp => exact blockInv_launch hp
  | step s t _ hs ih => exact everyStepKeepsTheInvariant s t ih hs
  | offer s item _ ih => exact ih.ports ..
  | answer s r _ ih => exact ih.ports ..
  | schedule s a _ ih => exact ih.ports ..

/-- Settles O53: the invariant holds along every run, and a state that meets it steps on. -/
theorem reachableStatesStepOn : Obligations.ReachableStatesStepOn :=
  fun _ h => ⟨h.blockInv, h.blockInv.stepsOn⟩

/-- Settles O31: a byte that changes is a payload byte's, at most 16382 above a base of 32 bits. -/
theorem highOffsetsAreNeverWritten : Obligations.HighOffsetsAreNeverWritten := by
  intro s t a h hstep ha
  by_contra hne
  obtain ⟨_, _, base, expected, written, _, hx, hoff, _⟩ := onlyPayloadBytesChangeMemory s t a h.mem_wf hstep hne
  obtain ⟨_, hmax, hlt⟩ : transferOk (.writing base expected written) := hx ▸ h.xs_ok
  have := base.isLt
  omega

end Sys2Proof.Machine
end

section
/-! PROOFS. Runs of `IN` over the bytes of a word and of a payload, and the two together with one step of the sender
(20_memory.md R48, R51, R53). -/

namespace Sys2Proof.Machine

/-! ### A payload of any length in memory -/

/-- The contents after `bytes` are stored at ascending offsets from `off`, those outside a region of `size` bytes
discarded (41_transfer.md R88). -/
def Memory.store (size : Nat) : Nat → List Byte → Memory → Memory
  | _, [], m => m
  | off, b :: bytes, m =>
    Memory.store size (off + 1) bytes (if off + 1 ≤ size then Memory.write m off b else m)

/-- The reports of the discarded bytes, one for each (41_transfer.md R88). -/
def discardReports (size : Nat) : Nat → List Byte → List Diag
  | _, [] => []
  | off, _ :: bytes =>
    (if off + 1 ≤ size then [] else [.outOfRange .write off 1]) ++ discardReports size (off + 1) bytes

theorem Memory.read_store_outside {size a : Nat} (bytes : List Byte) (off : Nat) (m : Memory)
    (ha : a < off ∨ off + bytes.length ≤ a ∨ size ≤ a) :
    Memory.read (Memory.store size off bytes m) a = Memory.read m a := by
  induction bytes generalizing off m with
  | nil => rfl
  | cons b bytes ih =>
    rw [List.length_cons] at ha
    rw [Memory.store, ih (off + 1) _ (by omega)]
    split
    · exact Memory.read_write_other m (by omega) b
    · rfl

theorem Memory.read_store_inside {size : Nat} (bytes : List Byte) (off : Nat) {m : Memory} (hwf : Memory.wf m = true)
    {i : Nat} (hi : i < bytes.length) (hr : off + i < size) :
    Memory.read (Memory.store size off bytes m) (off + i) = bytes[i] := by
  induction bytes generalizing off m i with
  | nil => cases hi
  | cons b bytes ih =>
    rw [Memory.store, if_pos (by omega)]
    cases i with
    | zero =>
      rw [Memory.read_store_outside bytes _ _ (by omega)]
      exact Memory.read_write_same hwf off b
    | succ i =>
      rw [show off + (i + 1) = off + 1 + i by omega]
      exact ih (off + 1) (Memory.write_wf hwf off b) (Nat.lt_of_succ_lt_succ hi) (by omega)

/-- Reading back the span of a payload that lies in the region gives the payload (20_memory.md R53). -/
theorem spanBytes_store {size off : Nat} {bytes : List Byte} {m : Memory} (hwf : Memory.wf m = true)
    (hr : off + bytes.length ≤ size) : spanBytes (Memory.store size off bytes m) off bytes.length = bytes := by
  refine List.ext_getElem (spanBytes_length ..) fun i _ hi => ?_
  rw [spanBytes_getElem, Memory.read_store_inside bytes off hwf hi (by omega)]

theorem discardReports_inRange {size : Nat} (bytes : List Byte) (off : Nat) (hr : off + bytes.length ≤ size) :
    discardReports size off bytes = [] := by
  induction bytes generalizing off with
  | nil => rfl
  | cons b bytes ih =>
    rw [List.length_cons] at hr
    rw [discardReports, if_pos (by omega), ih (off + 1) (by omega)]
    rfl

/-! ### The bytes to come -/

/-- The bytes to come may be taken in two stretches. -/
theorem BytesAreNext.append {bs cs : List Byte} {rest : List RxItem} {sched : List Config.Agent} {s : State}
    (h : BytesAreNext (bs ++ cs) rest sched s) :
    BytesAreNext bs (cs.map .byte ++ rest) (List.replicate cs.length .inbound ++ sched) s := by
  obtain ⟨hrx, hsched⟩ := h
  constructor
  · rw [hrx, List.map_append, List.append_assoc]
  · rw [hsched, List.length_append, List.replicate_add, List.append_assoc]

/-! ### A payload on the stream -/

/-- A payload byte in either range, as the storing of a payload of length 1 (41_transfer.md R88). -/
theorem execData_store {b : Byte} {s : State} {base : Addr} {expected written : Count}
    (hx : s.xs = .writing base expected written) (hl : s.memLive = true) :
    execData b s = .next { s with
      mem := Memory.store s.cfg.memSize (payloadOffset base written) [b] s.mem,
      diag := s.diag ++ discardReports s.cfg.memSize (payloadOffset base written) [b],
      xs := afterPayload base expected written } := by
  by_cases hr : payloadOffset base written + 1 ≤ s.cfg.memSize
  · rw [execData_inRange hx hl hr]
    simp [Memory.store, discardReports, hr]
  · rw [execData_outOfRange hx hl hr]
    simp [Memory.store, discardReports, hr]

theorem step_payload_stores {b : Byte} {rest : List RxItem} {s : State} {base : Addr} {expected written : Count}
    (hb : ByteIsNext b rest s) (hx : s.xs = .writing base expected written) (hl : s.memLive = true) :
    step s = .next { taken rest s with
      mem := Memory.store s.cfg.memSize (payloadOffset base written) [b] s.mem,
      diag := s.diag ++ discardReports s.cfg.memSize (payloadOffset base written) [b],
      xs := afterPayload base expected written } := by
  rw [step_payload hb (by rw [hx]; rfl)]
  exact execData_store (s := taken rest s) hx hl

/-- As many bytes as a Write transfer still expects are all payload, and the transfer then is over (20_memory.md R48,
R51). -/
theorem steps_payload {base : Addr} {expected : Count} {rest : List RxItem} {sched : List Config.Agent}
    (bytes : List Byte) {written : Count} {s : State} (hh : s.halt = .none) (hl : s.memLive = true)
    (hx : s.xs = .writing base expected written) (hlen : written.toNat + bytes.length = expected.toNat)
    (hpos : 0 < bytes.length) (h : BytesAreNext bytes rest sched s) :
    steps bytes.length s = .next { s with
      mem := Memory.store s.cfg.memSize (payloadOffset base written) bytes s.mem,
      diag := s.diag ++ discardReports s.cfg.memSize (payloadOffset base written) bytes,
      xs := .idle, rx := rest, sched := sched, draws := s.draws + bytes.length } := by
  induction bytes generalizing written s with
  | nil => cases hpos
  | cons b bytes ih =>
    rw [List.length_cons] at hlen
    obtain ⟨hb, htail⟩ := h.cons hh
    have hnext := nextWritten_toNat (written := written) (expected := expected) (by omega)
    rw [List.length_cons, steps_succ (step_payload_stores hb hx hl)]
    cases bytes with
    | nil =>
      have hlast : nextWritten written = expected := BitVec.eq_of_toNat_eq (by simpa [hnext] using hlen)
      obtain ⟨_, hsched⟩ := h
      simp [taken, afterPayload, hlast, hsched]
    | cons c bytes =>
      have hmore : nextWritten written ≠ expected := fun he => by
        rw [he] at hnext
        rw [List.length_cons] at hlen
        omega
      have hoff : payloadOffset base (nextWritten written) = payloadOffset base written + 1 := by
        simp only [payloadOffset, hnext, Nat.add_assoc]
      rw [ih (written := nextWritten written)]
      · simp [hoff, taken, Memory.store, discardReports, Nat.add_assoc, Nat.add_comm 1]
      · exact hh
      · exact hl
      · simp [afterPayload, hmore]
      · omega
      · exact Nat.succ_pos _
      · exact htail _ rfl rfl

/-- Settles O32: the state after the payload is written out by `steps_payload`; its contents are read by the laws of
`Memory.store`. -/
theorem payloadLandsInAscendingOrder : Obligations.PayloadLandsInAscendingOrder := by
  intro s base expected bytes rest sched hh hl hwf hx hlen hpos h
  refine ⟨_, steps_payload bytes hh hl hx (by simpa using hlen) hpos h, rfl, rfl, rfl, rfl, rfl, hh, rfl, ?_, ?_⟩
  · intro i hi hr
    rw [List.getElem?_eq_getElem hi]
    exact congrArg some (Memory.read_store_inside bytes base.toNat hwf hi hr)
  · intro a ha
    exact Memory.read_store_outside bytes base.toNat s.mem ha

/-! ### A word on the stream -/

section
variable {b : Byte} {rest : List RxItem} {s : State} (hb : ByteIsNext b rest s) (hx : s.xs.kind ≠ .writing)
include hb hx

/-- A byte that neither is filler nor completes a word is shifted in (40_decoder.md R74, R75). -/
theorem step_accumulates (hf : ¬ (s.cnt = 0 ∧ byteTag b = 0b00#2)) (hc : s.cnt ≠ 5) :
    step s = .next (accumulate b (taken rest s)) :=
  (step_decoder hb hx).trans (decodeByte_accumulates (s := taken rest s) hf hc)

/-- The sixth byte runs the word it completes (40_decoder.md R76). -/
theorem step_word (hc : s.cnt = 5) : step s = exec (decodeWord (shiftIn s.acc b)) (atWord rest s) := by
  rw [step_decoder hb hx, decodeByte_word (s := taken rest s) hc]
  simp [clearAcc, accumulate, atWord, taken, stopNotice, hc]

end

/-- Bytes inside a word, short of its sixth, are shifted in one after another (40_decoder.md R75). -/
theorem steps_accumulate {rest : List RxItem} {sched : List Config.Agent} (bytes : List Byte) {s : State}
    (hh : s.halt = .none) (hx : s.xs.kind ≠ .writing) (hpos : s.cnt ≠ 0) (hroom : s.cnt + bytes.length ≤ 5)
    (h : BytesAreNext bytes rest sched s) :
    steps bytes.length s = .next { s with
      acc := bytes.foldl shiftIn s.acc, cnt := s.cnt + bytes.length,
      rx := rest, sched := sched, draws := s.draws + bytes.length } := by
  induction bytes generalizing s with
  | nil =>
    obtain ⟨hrx, hsched⟩ := h
    subst hrx hsched
    rfl
  | cons b bytes ih =>
    rw [List.length_cons] at hroom
    obtain ⟨hb, htail⟩ := h.cons hh
    rw [List.length_cons, steps_succ (step_accumulates hb hx (fun hc => hpos hc.1) (by omega)), ih]
    · simp [taken, accumulate, stopNotice, hpos, Nat.add_assoc, Nat.add_comm 1]
    · exact hh
    · exact hx
    · exact Nat.succ_ne_zero _
    · change s.cnt + 1 + bytes.length ≤ 5
      omega
    · exact htail _ rfl rfl

/-- Six bytes from a boundary on run the word they make, with the accumulator empty and the stop notice given if it is
a Stop word (40_decoder.md R72 to R76). -/
theorem steps_sixBytes {b0 b1 b2 b3 b4 b5 : Byte} {rest : List RxItem} {sched : List Config.Agent} {s : State}
    (hh : s.halt = .none) (hx : s.xs.kind ≠ .writing) (hc : s.cnt = 0) (ht : byteTag b0 ≠ 0b00#2)
    (h : BytesAreNext [b0, b1, b2, b3, b4, b5] rest sched s) :
    steps 6 s = exec (decodeWord (joinBytes b0 b1 b2 b3 b4 b5)) { s with
      acc := 0#48, cnt := 0, stopPending := s.stopPending || decide (byteTag b0 = 0b11#2),
      rx := rest, sched := sched, draws := s.draws + 6 } := by
  obtain ⟨hb, htail⟩ := h.cons hh
  have hfirst := step_accumulates hb hx (fun hf => ht hf.2) (by omega)
  have hmiddle := steps_accumulate (s := accumulate b0 (taken _ s)) [b1, b2, b3, b4] hh hx (Nat.succ_ne_zero _)
    (by simp [taken, hc]) (BytesAreNext.append (cs := [b5]) (htail _ rfl rfl))
  calc steps 6 s
    _ = steps 5 _ := steps_succ hfirst
    _ = steps 1 _ := steps_add (n := 1) hmiddle
    _ = step _ := steps_one _
    _ = exec _ _ := step_word ⟨nextAgent_of_sched hh rfl rfl, rfl⟩ hx (by simp [taken, hc])
    _ = _ := by
      rw [← shiftIn_six s.acc b0 b1 b2 b3 b4 b5]
      simp [atWord, accumulate, taken, stopNotice, hc]

theorem byteTag_wordByte_zero (w : Word48) : byteTag (wordByte w 0) = wordHdr w := by
  rw [← wordHdr_joinBytes, joinBytes_wordBytes]

/-- The bytes of a word run it. A word with header `00` does not begin with its first byte, which is filler (R73). -/
theorem steps_wordBytes {w : Word48} {rest : List RxItem} {sched : List Config.Agent} {s : State} (hh : s.halt = .none)
    (hx : s.xs.kind ≠ .writing) (hc : s.cnt = 0) (hw : wordHdr w ≠ 0b00#2)
    (h : BytesAreNext (wordBytes w) rest sched s) :
    steps 6 s = exec (decodeWord w) { s with
      acc := 0#48, cnt := 0, stopPending := s.stopPending || decide (wordHdr w = 0b11#2),
      rx := rest, sched := sched, draws := s.draws + 6 } := by
  rw [steps_sixBytes hh hx hc (by rwa [byteTag_wordByte_zero]) h, joinBytes_wordBytes, byteTag_wordByte_zero]

/-! ### Whole transfers -/

section
variable {a : Addr} {l : Len} {rest : List RxItem} {sched : List Config.Agent} {s : State}
  (hh : s.halt = .none) (hx : s.xs = .idle) (hc : s.cnt = 0)
include hh hx hc

/-- A READ word from Idle arms the sender (41_transfer.md R85). -/
theorem steps_read (h : BytesAreNext (encode (.read a l)) rest sched s) :
    steps 6 s = .next { s with
      acc := 0#48, cnt := 0, xs := .reading a (lenCount l) false,
      rx := rest, sched := sched, draws := s.draws + 6 } := by
  rw [steps_wordBytes (w := encFields 0b01#2 a l) hh (by rw [hx]; nofun) hc (by simp) h]
  simp [decodeWord, exec, execRead, hx]

/-- A WRITE word from Idle starts a transfer of `l` bytes, none where `l` is 0 (41_transfer.md R86, R87). -/
theorem steps_write (h : BytesAreNext (encode (.write a l)) rest sched s) :
    steps 6 s = .next { s with
      acc := 0#48, cnt := 0, xs := if l = 0#14 then .idle else .writing a (lenCount l) 0#16,
      rx := rest, sched := sched, draws := s.draws + 6 } := by
  rw [steps_wordBytes (w := encFields 0b10#2 a l) hh (by rw [hx]; nofun) hc (by simp) h]
  by_cases hl : l = 0#14 <;> simp [decodeWord, exec, execWrite, hx, hl]

/-- A WRITE word and its data, from Idle to Idle; with no data the word alone (20_memory.md R48, R51). -/
theorem steps_writeTransfer (hl : s.memLive = true) {data : List Byte} (hlen : data.length = l.toNat)
    (h : BytesAreNext (encode (.write a l) ++ data) rest sched s) :
    steps (6 + data.length) s = .next { s with
      acc := 0#48, cnt := 0, xs := .idle,
      mem := Memory.store s.cfg.memSize a.toNat data s.mem,
      diag := s.diag ++ discardReports s.cfg.memSize a.toNat data,
      rx := rest, sched := sched, draws := s.draws + (6 + data.length) } := by
  rw [steps_add (steps_write hh hx hc h.append)]
  cases data with
  | nil =>
    have hl0 : l = 0#14 := BitVec.eq_of_toNat_eq hlen.symm
    simp [hl0, Memory.store, discardReports]
  | cons b bytes =>
    have hl0 : l ≠ 0#14 := fun he => by simp [he] at hlen
    rw [if_neg hl0, steps_payload (base := a) (expected := lenCount l) (written := 0#16)
      (rest := rest) (sched := sched)]
    · simp [payloadOffset, baseOffset, Nat.add_assoc]
    · exact hh
    · exact hl
    · rfl
    · rw [lenCount_toNat, ← hlen]
      exact Nat.zero_add _
    · exact Nat.succ_pos _
    · exact ⟨rfl, rfl⟩

end

/-- Where the oldest choice names the sender and a Read transfer is at hand, the sender moves. -/
theorem nextAgent_sender_of_sched {s : State} {base : Addr} {length : Count} {drained : Bool}
    {sched : List Config.Agent} (hh : s.halt = .none) (hx : s.xs = .reading base length drained)
    (hs : s.sched = .sender :: sched) : nextAgent s = some .sender := by
  have hsnd : sndEnabled s = true := (sndEnabled_iff s).2 ⟨hh, base, length, drained, hx⟩
  unfold nextAgent
  rw [hsnd]
  cases inEnabled s <;> simp [turn, hs]

/-- The reply to a span in range, where the host accepts it: exactly the span's bytes; an empty one asks for no answer
(42_sender.md R93). -/
theorem step_emits {s : State} {base : Addr} {length : Count} (hn : nextAgent s = some .sender)
    (hx : s.xs = .reading base length false) (hl : s.memLive = true)
    (hr : baseOffset base + length.toNat ≤ s.cfg.memSize) (ha : txAnswer (advance s) = .ok) :
    step s = .next { advance s with
      tx := s.tx ++ spanBytes s.mem (baseOffset base) length.toNat,
      txAnswers := if length.toNat = 0 then s.txAnswers else s.txAnswers.tail,
      xs := .reading base length true } := by
  have hstep : step s = sndEmit base length (advance s) := by simp [step, hn, sndStep, hx]
  have hlen := spanBytes_length s.mem (baseOffset base) length.toNat
  rw [hstep, sndEmit, memRead_inRange (s := advance s) hl hr, advance_mem]
  cases hseq : spanBytes s.mem (baseOffset base) length.toNat with
  | nil =>
    rw [hseq] at hlen
    simp [← hlen]
  | cons b seq =>
    rw [hseq, List.length_cons] at hlen
    rw [if_neg (by omega)]
    simp only [emitReply, ha]
    rfl

/-- A READ word from Idle and one step of the sender, where the span is in range and the host accepts it: the reply is
the span (20_memory.md R53). -/
theorem steps_readTransfer {a : Addr} {l : Len} {rest : List RxItem} {sched : List Config.Agent} {s : State}
    {answers : List Config.TxAnswer} (hh : s.halt = .none) (hx : s.xs = .idle) (hc : s.cnt = 0)
    (hl : s.memLive = true) (hr : a.toNat + l.toNat ≤ s.cfg.memSize) (hans : s.txAnswers = .ok :: answers)
    (h : BytesAreNext (encode (.read a l)) rest (.sender :: sched) s) :
    steps (6 + 1) s = .next { s with
      acc := 0#48, cnt := 0, xs := .reading a (lenCount l) true,
      tx := s.tx ++ spanBytes s.mem a.toNat l.toNat,
      txAnswers := if l.toNat = 0 then s.txAnswers else answers,
      rx := rest, sched := sched, draws := s.draws + 7 } := by
  rw [steps_add (steps_read hh hx hc h), steps_one]
  refine (step_emits (base := a) (length := lenCount l) ?_ ?_ ?_ ?_ ?_).trans ?_
  · exact nextAgent_sender_of_sched hh rfl rfl
  · rfl
  · exact hl
  · rwa [lenCount_toNat]
  · simp [txAnswer, hans]
  · simp [advance, lenCount_toNat, baseOffset, hans]

/-- Settles O33: the Write transfer, then the Read transfer, which reads back what was stored. -/
theorem writeThenReadReturnsTheData : Obligations.WriteThenReadReturnsTheData := by
  intro s a l data rest sched answers hh hl hwf hx hc hlen hr hans h
  have hrun := (steps_add (n := 6 + 1) (steps_writeTransfer hh hx hc hl hlen h.append)).trans
    (steps_readTransfer (sched := sched) hh rfl rfl hl hr hans ⟨rfl, rfl⟩)
  rw [show 6 + data.length + (6 + 1) = l.toNat + 13 by omega] at hrun
  have hspan : a.toNat + data.length ≤ s.cfg.memSize := hlen ▸ hr
  refine ⟨_, hrun, ?_, ?_, hh, ?_⟩
  · change s.tx ++ spanBytes _ a.toNat l.toNat = _
    rw [← hlen, spanBytes_store hwf hspan]
  · exact congrArg (TransferState.reading a · true) (BitVec.eq_of_toNat_eq (by simp [lenCount]))
  · change s.diag ++ _ = _
    rw [discardReports_inRange data a.toNat hspan, List.append_nil]

end Sys2Proof.Machine
end

section
/-! PROOFS. The wire encoding (30_encoding.md R58 to R69): each header's decoding, the word and the stream decoder as the two
inverses of the encoder, and what STOP and DATA make of their operands. -/

namespace Sys2Proof

/-! ### The header selects the instruction -/

section
variable {w : Word48}

theorem wordHdr_eq_three (w : Word48) : wordHdr w = 0b11#2 ↔ w.toNat / 2 ^ 46 = 3 := by
  rw [← BitVec.toNat_inj, wordHdr_toNat]
  rfl

theorem decodeWord_of_hdr_read (h : wordHdr w = 0b01#2) : decodeWord w = .read (wordAddr w) (wordLen w) := by
  simp [decodeWord, h]

theorem decodeWord_of_hdr_write (h : wordHdr w = 0b10#2) : decodeWord w = .write (wordAddr w) (wordLen w) := by
  simp [decodeWord, h]

theorem decodeWord_of_hdr_stop (h : wordHdr w = 0b11#2) : decodeWord w = .stop (wordRest w) := by
  simp [decodeWord, h]

theorem decodeWord_of_hdr_rsvd00 (h : wordHdr w = 0b00#2) : decodeWord w = .rsvd00 (wordRest w) := by
  simp [decodeWord, h]

end

/-! ### The word decoder and the encoder -/

/-- R61: encoding what a word decodes to gives the word back. -/
@[simp] theorem encodeWord_decodeWord (w : Word48) : encodeWord (decodeWord w) = some w := by
  obtain ⟨h, hd⟩ | ⟨h, hd⟩ | ⟨h, hd⟩ | ⟨h, hd⟩ := decodeWord_cases w
  · rw [hd, encodeWord, ← h, encFields_fields]
  · rw [hd, encodeWord, ← h, encFields_fields]
  · rw [hd, encodeWord, ← h, encRest_fields]
  · rw [hd, encodeWord, ← h, encRest_fields]

theorem decodeWord_of_encodeWord {i : Instr} {w : Word48} (h : encodeWord i = some w) : decodeWord w = i := by
  cases i with
  | read a l => cases h; simp [decodeWord]
  | write a l => cases h; simp [decodeWord]
  | stop x => cases h; simp [decodeWord]
  | rsvd00 x => cases h; simp [decodeWord]
  | fill b => cases h
  | data b => cases h

/-- R58: the form of a word is sent as the word's six bytes. -/
theorem encode_of_encodeWord {i : Instr} {w : Word48} (h : encodeWord i = some w) : encode i = wordBytes w := by
  cases i with
  | read a l => cases h; rfl
  | write a l => cases h; rfl
  | stop x => cases h; rfl
  | rsvd00 x => cases h; rfl
  | fill b => cases h
  | data b => cases h

@[simp] theorem encode_decodeWord (w : Word48) : encode (decodeWord w) = wordBytes w :=
  encode_of_encodeWord (encodeWord_decodeWord w)

/-- R63: only a word of header `00` is the reserved form. -/
theorem decodeWord_ne_rsvd00 {w : Word48} (h : wordHdr w ≠ 0b00#2) (x : BitVec 46) : decodeWord w ≠ .rsvd00 x := by
  intro hx
  have hw : encodeWord (.rsvd00 x) = some w := hx ▸ encodeWord_decodeWord w
  cases hw
  exact h (wordHdr_encRest _ x)

/-- Settles O3: the word decoder undoes the encoder on both sides. -/
theorem everyWordEncodesOneInstruction : Obligations.EveryWordEncodesOneInstruction :=
  fun w => ⟨encodeWord_decodeWord w, fun _ h => (decodeWord_of_encodeWord h).symm⟩

/-! ### The stream decoder and the encoder -/

/-- R61: a word is never rejected, and it is read at a word boundary (R67). -/
@[simp] theorem wellFormed_decodeWord (w : Word48) : (decodeWord w).wellFormed = true := by
  obtain ⟨_, hd⟩ | ⟨_, hd⟩ | ⟨_, hd⟩ | ⟨_, hd⟩ := decodeWord_cases w <;> rw [hd] <;> rfl

@[simp] theorem context_decodeWord (w : Word48) : (decodeWord w).context = .boundary := by
  obtain ⟨_, hd⟩ | ⟨_, hd⟩ | ⟨_, hd⟩ | ⟨_, hd⟩ := decodeWord_cases w <;> rw [hd] <;> rfl

theorem wellFormed_fill_iff (b : Byte) : (Instr.fill b).wellFormed = true ↔ byteTag b = 0b00#2 := by
  simp [Instr.wellFormed, byteTag_eq_zero]

theorem wordBytes_joinBytes (b0 b1 b2 b3 b4 b5 : Byte) :
    wordBytes (joinBytes b0 b1 b2 b3 b4 b5) = [b0, b1, b2, b3, b4, b5] := by
  simp only [wordBytes, List.cons.injEq, and_true, ← BitVec.toNat_inj, wordByte_toNat, joinBytes_toNat]
  omega

theorem decode_payload (b : Byte) (rest : List Byte) : decode .payload (b :: rest) = .ok (.data b, rest) := rfl

theorem decode_filler {b : Byte} (h : byteTag b = 0b00#2) (rest : List Byte) :
    decode .boundary (b :: rest) = .ok (.fill b, rest) := by
  simp [decode, h]

theorem decode_wordBytes {w : Word48} (h : wordHdr w ≠ 0b00#2) (rest : List Byte) :
    decode .boundary (wordBytes w ++ rest) = .ok (decodeWord w, rest) := by
  simp [decode, wordBytes, Machine.byteTag_wordByte_zero, h, joinBytes_wordBytes]

/-- Everything the stream decoder can answer (R67). -/
theorem decode_cases {c : StreamContext} {bytes rest : List Byte} {i : Instr} (h : decode c bytes = .ok (i, rest)) :
    (∃ b, c = .payload ∧ bytes = b :: rest ∧ i = .data b) ∨
    (∃ b, c = .boundary ∧ bytes = b :: rest ∧ i = .fill b ∧ byteTag b = 0b00#2) ∨
    (∃ w, c = .boundary ∧ bytes = wordBytes w ++ rest ∧ i = decodeWord w ∧ wordHdr w ≠ 0b00#2) := by
  unfold decode at h
  split at h
  case h_1 => cases h
  case h_2 b _ => cases h; exact .inl ⟨b, rfl, rfl, rfl⟩
  case h_3 b0 _ =>
    split at h
    case isTrue ht => cases h; exact .inr (.inl ⟨b0, rfl, rfl, rfl, ht⟩)
    case isFalse ht =>
      split at h
      case h_1 b1 b2 b3 b4 b5 _ =>
        cases h
        exact .inr (.inr ⟨joinBytes b0 b1 b2 b3 b4 b5, rfl, by rw [wordBytes_joinBytes]; rfl, rfl,
          by rwa [wordHdr_joinBytes]⟩)
      case h_2 => cases h

/-- Settles O2: each answer of the stream decoder is a payload byte, a filler byte, or a word whose header is not `00`. -/
theorem decodedFormsAreTheirEncoding : Obligations.DecodedFormsAreTheirEncoding := by
  intro c bytes i rest h
  obtain ⟨b, rfl, rfl, rfl⟩ | ⟨b, rfl, rfl, rfl, ht⟩ | ⟨w, rfl, rfl, rfl, hw⟩ := decode_cases h
  · exact ⟨rfl, rfl, rfl, nofun⟩
  · exact ⟨rfl, (wellFormed_fill_iff b).2 ht, rfl, nofun⟩
  · exact ⟨by rw [encode_decodeWord], wellFormed_decodeWord w, context_decodeWord w,
      decodeWord_ne_rsvd00 hw⟩

/-- R67: the stream gives back the form of a word, unless the word's first byte is filler (R68). -/
theorem decode_encode_of_encodeWord {i : Instr} {w : Word48} (h : encodeWord i = some w) (hi : ∀ x, i ≠ .rsvd00 x)
    (rest : List Byte) : decode i.context (encode i ++ rest) = .ok (i, rest) := by
  obtain rfl := decodeWord_of_encodeWord h
  have hw : wordHdr w ≠ 0b00#2 := fun h0 => hi _ (decodeWord_of_hdr_rsvd00 h0)
  rw [context_decodeWord, encode_decodeWord, decode_wordBytes hw]

/-- R61, R67: the stream decoder undoes the encoder on every well-formed form but the reserved header. -/
theorem decode_encode {i : Instr} (hwf : i.wellFormed = true) (hi : ∀ x, i ≠ .rsvd00 x) (rest : List Byte) :
    decode i.context (encode i ++ rest) = .ok (i, rest) := by
  cases i with
  | read a l => exact decode_encode_of_encodeWord rfl hi rest
  | write a l => exact decode_encode_of_encodeWord rfl hi rest
  | stop x => exact decode_encode_of_encodeWord rfl hi rest
  | rsvd00 x => exact absurd rfl (hi x)
  | fill b => exact decode_filler ((wellFormed_fill_iff b).1 hwf) rest
  | data b => exact decode_payload b rest

/-- Settles O1: the stream decoder and the word decoder both undo the encoder. -/
theorem decodeOfEncodeIsTheInstruction : Obligations.DecodeOfEncodeIsTheInstruction :=
  fun _ rest hwf => ⟨fun hi => decode_encode hwf hi rest,
    fun _ h => ⟨decodeWord_of_encodeWord h, encode_of_encodeWord h⟩⟩

/-! ### The opcode table's mask -/

/-- R63: the mask of the opcode table keeps the header and clears the operands. -/
theorem and_headerMask (w : Word48) : w &&& 0xC00000000000#48 = encRest (wordHdr w) 0#46 := by
  calc w &&& 0xC00000000000#48
    _ = (wordHdr w ++ wordRest w) &&& (0b11#2 ++ 0#46) := congrArg₂ (· &&& ·) (encRest_fields w).symm rfl
    _ = (wordHdr w &&& BitVec.allOnes 2) ++ (wordRest w &&& 0#46) := BitVec.and_append
    _ = encRest (wordHdr w) 0#46 := by rw [BitVec.and_allOnes, BitVec.and_zero, encRest]

theorem wordHdr_of_and_headerMask {w : Word48} {h : Hdr} (hm : w &&& 0xC00000000000#48 = encRest h 0#46) :
    wordHdr w = h := by
  rw [and_headerMask] at hm
  simpa using congrArg wordHdr hm

theorem wordAddr_eq_ofNat (w : Word48) : wordAddr w = BitVec.ofNat 32 (w.toNat / 2 ^ 14) :=
  BitVec.eq_of_toNat_eq (by rw [wordAddr_toNat, BitVec.toNat_ofNat])

theorem wordLen_eq_ofNat (w : Word48) : wordLen w = BitVec.ofNat 14 w.toNat :=
  BitVec.eq_of_toNat_eq (by rw [wordLen_toNat, BitVec.toNat_ofNat])

theorem wordRest_eq_ofNat (w : Word48) : wordRest w = BitVec.ofNat 46 w.toNat :=
  BitVec.eq_of_toNat_eq (by rw [wordRest_toNat, BitVec.toNat_ofNat])

/-- Settles O4: a masked word is its header with operands 0, and the fields are the word's bits as numbers. -/
theorem headerMaskSelectsInstruction : Obligations.HeaderMaskSelectsInstruction := by
  intro w
  rw [← wordAddr_eq_ofNat, ← wordLen_eq_ofNat, ← wordRest_eq_ofNat]
  exact ⟨fun hm => decodeWord_of_hdr_read (wordHdr_of_and_headerMask hm),
    fun hm => decodeWord_of_hdr_write (wordHdr_of_and_headerMask hm),
    fun hm => decodeWord_of_hdr_stop (wordHdr_of_and_headerMask hm),
    fun hm => decodeWord_of_hdr_rsvd00 (wordHdr_of_and_headerMask hm)⟩

/-- Settles O5: the decoder is run on each vector. -/
theorem sampleWordsDecode : Obligations.SampleWordsDecode :=
  ⟨by rfl, by rfl, by rfl, by rfl, by rfl, by rfl, by rfl, by rfl⟩

end Sys2Proof

/-! ### The meaning of STOP and DATA -/

namespace Sys2Proof.Machine

/-- R64: a word of header `11` ends communication and releases the region, whatever its other 46 bits are. -/
theorem exec_of_hdr_stop {w : Word48} (h : wordHdr w = 0b11#2) (s : State) :
    exec (decodeWord w) s = .next { s with halt := .stopped, memLive := false } := by
  rw [decodeWord_of_hdr_stop h]
  rfl

/-- Settles O20: both words have header `11`, and their common answer holds none of their other bits. -/
theorem stopIgnoresItsOperands : Obligations.StopIgnoresItsOperands := by
  intro v w s hv hw
  have hstop := exec_of_hdr_stop ((wordHdr_eq_three w).2 hw) s
  exact ⟨(exec_of_hdr_stop ((wordHdr_eq_three v).2 hv) s).trans hstop.symm, hstop⟩

/-- Settles O24: of the transfer states only Writing has a place for a payload byte (log 7). -/
theorem dataOutsideWritingIsRefused : Obligations.DataOutsideWritingIsRefused := by
  intro b s hx
  change execData b s = _
  unfold execData
  cases hs : s.xs with
  | idle => rfl
  | writing base expected written => exact absurd (congrArg TransferState.kind hs) hx
  | reading base length drained => rfl

end Sys2Proof.Machine
end

section
/-! PROOFS. The decoder of the input stream (40_decoder.md R71 to R81): what `IN` does with one byte and with the bytes of a
form, and that a run fair to `IN` takes every item. -/

namespace Sys2Proof.Machine

/-- Settles O21: both forms answer the state they are given. -/
theorem fillerAndReservedChangeNothing : Obligations.FillerAndReservedChangeNothing :=
  ⟨fun _ _ => rfl, fun _ _ => rfl⟩

/-! ### One byte outside a Write transfer -/

section
variable {b : Byte} {rest : List RxItem} {s : State} (hb : ByteIsNext b rest s) (hx : s.xs.kind ≠ .writing)
include hb hx

/-- R73: filler at a word boundary only leaves RX. -/
theorem step_filler (hc : s.cnt = 0) (ht : byteTag b = 0b00#2) : step s = .next (taken rest s) :=
  (step_decoder hb hx).trans (decodeByte_filler (s := taken rest s) ⟨hc, ht⟩)

/-- R74, R75: a byte inside a word is shifted in, whatever its top bits are, and leaves the stop notice alone. -/
theorem step_accumulates_inside (hpos : s.cnt ≠ 0) (hc : s.cnt ≠ 5) :
    step s = .next { taken rest s with acc := shiftIn s.acc b, cnt := s.cnt + 1 } := by
  rw [step_accumulates hb hx (fun hf => hpos hf.1) hc]
  simp [accumulate, taken, stopNotice, hpos]

end

/-- Settles O10: the three positions of a byte below 0x40 are the decoder's three cases. -/
theorem fillerOnlyAtWordBoundary : Obligations.FillerOnlyAtWordBoundary := by
  intro s b rest hb hx hlt
  exact ⟨fun hc => step_filler hb hx hc ((byteTag_eq_zero b).2 hlt),
    fun hpos hlt5 => step_accumulates_inside hb hx hpos hlt5.ne, step_word hb hx⟩

/-- Settles O8: the invariant leaves room in the accumulator, and a byte that is not filler is shifted in. -/
theorem byteIsShiftedIntoAccumulator : Obligations.ByteIsShiftedIntoAccumulator := by
  intro s b rest hinv hb hx hf
  rw [← byteTag_eq_zero] at hf
  exact ⟨shiftIn_toNat_of_room b hinv.acc_room, fun hlt5 => ⟨_, step_accumulates hb hx hf hlt5.ne, rfl⟩,
    step_word hb hx⟩

/-- R59: the header of a word is its top two bits, read as a number. -/
theorem wordHdr_of_toNat {w : Word48} {h : Hdr} (hw : w.toNat / 2 ^ 46 = h.toNat) : wordHdr w = h :=
  BitVec.eq_of_toNat_eq ((wordHdr_toNat w).trans hw)

/-- Settles O13: `step_word` runs the word, whose header selects the instruction; no word changes the accumulator it finds
empty. -/
theorem sixthByteCompletesTheWord : Obligations.SixthByteCompletesTheWord := by
  intro s b rest w hb hx hc hw
  have hstep : step s = exec (decodeWord w) (atWord rest s) := hw ▸ step_word hb hx hc
  rw [← wordAddr_eq_ofNat, ← wordLen_eq_ofNat, ← wordRest_eq_ofNat, hstep]
  refine ⟨fun h => ?_, fun h => ?_, fun h => ?_, fun h => ?_, ?_⟩
  · rw [decodeWord_of_hdr_read (wordHdr_of_toNat h)]; rfl
  · rw [decodeWord_of_hdr_write (wordHdr_of_toNat h)]; rfl
  · rw [decodeWord_of_hdr_stop (wordHdr_of_toNat h)]; rfl
  · rw [decodeWord_of_hdr_rsvd00 (wordHdr_of_toNat h)]; rfl
  · obtain ⟨t, ht, he⟩ := exec_decodeWord w (atWord rest s)
    exact ⟨t, ht, (congrArg State.acc he.frame :), (congrArg State.cnt he.frame :)⟩

/-! ### The bytes of one form -/

/-- R67: one byte at a word boundary is a form by itself only as filler. -/
theorem decode_boundary_byte {b : Byte} {i : Instr} (h : decode .boundary [b] = .ok (i, [])) :
    i = .fill b ∧ byteTag b = 0b00#2 := by
  obtain ⟨_, hcontext, _⟩ | ⟨_, _, hbytes, hi, ht⟩ | ⟨_, _, hbytes, _⟩ := decode_cases h
  · cases hcontext
  · cases hbytes
    exact ⟨hi, ht⟩
  · cases hbytes

/-- Settles O6: a payload byte, a filler byte and the sixth byte of a word each run the form they complete. -/
theorem stepRunsDecodedInstruction : Obligations.StepRunsDecodedInstruction := by
  intro s b rest i hb
  refine ⟨fun hx hd => ?_, fun hx hc hd => ?_, fun hx hc hi => ?_⟩
  · cases hd
    exact step_payload hb hx
  · obtain ⟨rfl, ht⟩ := decode_boundary_byte hd
    exact step_filler hb hx hc ht
  · exact hi ▸ step_word hb hx hc

/-- Settles O11: by induction on the bytes, each of which only leaves RX. -/
theorem fillerRunIsIdempotent : Obligations.FillerRunIsIdempotent := by
  intro s bytes rest sched hfill hh hc hx h
  induction bytes generalizing s with
  | nil =>
    obtain ⟨hrx, hsched⟩ := h
    subst hrx hsched
    rfl
  | cons b bytes ih =>
    obtain ⟨hb, htail⟩ := h.cons hh
    obtain ⟨hlt, hfill⟩ := List.forall_mem_cons.1 hfill
    rw [List.length_cons, steps_succ (step_filler hb hx hc ((byteTag_eq_zero b).2 hlt)),
      ih (taken _ s) hfill hh hc hx (htail _ rfl rfl)]
    simp [taken, Nat.add_assoc, Nat.add_comm 1]

theorem streamContext_eq_payload (s : State) : streamContext s = .payload ↔ s.xs.kind = .writing := by
  simp [streamContext]

theorem streamContext_eq_boundary (s : State) : streamContext s = .boundary ↔ s.xs.kind ≠ .writing := by
  simp [streamContext]

/-- R74: a word gives the stop notice by its first byte exactly when it is a Stop word. -/
theorem isStop_decodeWord (w : Word48) : (decodeWord w).isStop = decide (wordHdr w = 0b11#2) := by
  obtain ⟨hw, hd⟩ | ⟨hw, hd⟩ | ⟨hw, hd⟩ | ⟨hw, hd⟩ := decodeWord_cases w <;> rw [hd, hw] <;> rfl

/-- The state in which the one byte to come has been taken, as `BytesAreNext` names what is left. -/
theorem BytesAreNext.taken_singleton {b : Byte} {rest : List RxItem} {sched : List Config.Agent} {s : State}
    (h : BytesAreNext [b] rest sched s) : taken rest s = { s with rx := rest, sched := sched, draws := s.draws + 1 } := by
  obtain ⟨_, hsched⟩ := h
  rw [taken, hsched]
  rfl

/-- Settles O12: what the stream decoder reads is a payload byte, a filler byte or a word, and the steps of `IN` over each of
them run it. -/
theorem framerRefinesStreamDecoder : Obligations.FramerRefinesStreamDecoder := by
  intro s bytes i rest sched hh hc hd h
  obtain ⟨b, hcontext, rfl, rfl⟩ | ⟨b, hcontext, rfl, rfl, ht⟩ | ⟨w, hcontext, rfl, rfl, hw⟩ := decode_cases hd
  · have hstep := step_payload (h.cons hh).1 ((streamContext_eq_payload s).1 hcontext)
    rw [List.length_singleton, steps_one, hstep, List.map_nil, List.nil_append, h.taken_singleton]
    simp [exec, Instr.isStop]
  · have hstep := step_filler (h.cons hh).1 ((streamContext_eq_boundary s).1 hcontext) hc ht
    rw [List.length_singleton, steps_one, hstep, List.map_nil, List.nil_append, h.taken_singleton]
    simp [exec, execFill, Instr.isStop]
  · rw [List.append_nil] at h ⊢
    have hsteps := steps_wordBytes hh ((streamContext_eq_boundary s).1 hcontext) hc hw h
    rw [show (wordBytes w).length = 6 from rfl, hsteps, isStop_decodeWord, if_pos rfl, hc]
    rfl

/-! ### Runs that are fair to `IN` -/

/-- R27: a move that is no step of `IN` only appends to the stream. -/
theorem makeMove_rx_of_not_inbound {m : Move} {s t : State} (h : makeMove m s = .next t)
    (hn : ¬ (m = .block ∧ nextAgent s = some .inbound)) : ∃ appended, t.rx = s.rx ++ appended := by
  obtain ⟨hm, hs⟩ | ⟨_, appended, _, _, rfl, _⟩ := makeMove_cases h
  · obtain ⟨_, htake, _⟩ := inputIsTakenInOrder
    exact ⟨[], ((htake s t hs).2 fun hi => hn ⟨hm, hi⟩).trans (List.append_nil _).symm⟩
  · exact ⟨appended, rfl⟩

/-- R27: as long as `IN` takes no step the stream only grows behind what stood on it. -/
theorem IsRun.rx_of_no_inbound {r : Nat → State} {moves : Nat → Move} (hr : IsRun r moves) {n m : Nat} (hle : n ≤ m)
    (hnone : ∀ k, n ≤ k → k < m → ¬ StepTaken .inbound r moves k) : ∃ appended, (r m).rx = (r n).rx ++ appended := by
  induction m, hle using Nat.le_induction with
  | base => exact ⟨[], (List.append_nil _).symm⟩
  | succ m hle ih =>
    obtain ⟨before, hbefore⟩ := ih fun k hk hlt => hnone k hk (Nat.lt_succ_of_lt hlt)
    obtain ⟨appended, happended⟩ := makeMove_rx_of_not_inbound (hr m) (hnone m hle (Nat.lt_succ_self m))
    exact ⟨before ++ appended, by rw [happended, hbefore, List.append_assoc]⟩

/-- R81: with an item on RX a run fair to `IN` takes a step of `IN`, unless communication ends: without such a step the item
stays, and keeps `IN` enabled. -/
theorem IsRun.halts_or_steps_inbound {r : Nat → State} {moves : Nat → Move} (hr : IsRun r moves)
    (hfair : FairIn r moves) {n : Nat} {item : RxItem} {rest : List RxItem} (hrx : (r n).rx = item :: rest) :
    (∃ m, n ≤ m ∧ (r m).halt ≠ .none) ∨ ∃ m, n ≤ m ∧ StepTaken .inbound r moves m := by
  by_contra! hno
  obtain ⟨hhalt, hnone⟩ := hno
  obtain ⟨m, hle, hm⟩ := hfair n fun m hle => by
    obtain ⟨appended, happended⟩ := hr.rx_of_no_inbound hle fun k hk _ => hnone k hk
    exact (inEnabled_iff (r m)).2 ⟨hhalt m hle, item, rest ++ appended, by rw [happended, hrx, List.cons_append]⟩
  exact hnone m hle hm

/-- Settles O59: the first step of `IN` from the point on finds the item still at the head, and takes it. -/
theorem fairInboundTakesEveryItem : Obligations.FairInboundTakesEveryItem := by
  classical
  intro r moves n item rest hr hfair hrx
  obtain ⟨m, hle, hhalt⟩ | hstep := hr.halts_or_steps_inbound hfair hrx
  · exact ⟨m, hle, .inl hhalt⟩
  · obtain ⟨hle, hblock, hn⟩ := Nat.find_spec hstep
    obtain ⟨appended, happended⟩ := hr.rx_of_no_inbound hle fun k hk hlt hk' => Nat.find_min hstep hlt ⟨hk, hk'⟩
    rw [hrx, List.cons_append] at happended
    have hnext := hr (Nat.find hstep)
    rw [hblock, makeMove_block] at hnext
    obtain ⟨_, htake, _⟩ := inputIsTakenInOrder
    obtain ⟨_, htaken⟩ := (htake _ _ hnext).1 hn
    rw [happended] at htaken
    exact ⟨_, hle, .inr ⟨⟨hblock, hn⟩, appended, happended, (List.cons.inj htaken).2.symm⟩⟩

end Sys2Proof.Machine
end

section
/-! PROOFS. The transfer engine (41_transfer.md R82 to R90): what each form does in each transfer state, what it leaves as it was,
and which steps end communication. -/

namespace Sys2Proof.Machine

/-! ### READ and WRITE (41_transfer.md R84 to R87) -/

section
variable {a : Addr} {l : Len} {s : State}

theorem exec_read_of_idle (hx : s.xs = .idle) :
    exec (.read a l) s = .next { s with xs := .reading a (lenCount l) false } :=
  if_pos hx

theorem exec_read_of_active (hx : s.xs ≠ .idle) : exec (.read a l) s = .next (protocolViolation 0b01#2 a l s) :=
  if_neg hx

theorem exec_write_of_idle (hx : s.xs = .idle) (hl : l ≠ 0#14) :
    exec (.write a l) s = .next { s with xs := .writing a (lenCount l) 0#16 } :=
  (if_pos hx).trans (if_neg hl)

theorem exec_write_zero_of_idle (hx : s.xs = .idle) (hl : l = 0#14) : exec (.write a l) s = .next s :=
  (if_pos hx).trans (if_pos hl)

theorem exec_write_of_active (hx : s.xs ≠ .idle) : exec (.write a l) s = .next (protocolViolation 0b10#2 a l s) :=
  if_neg hx

end

/-- The length of a word in a transfer register, read as a number (30_encoding.md R62). -/
theorem lenCount_eq_ofNat (l : Len) : lenCount l = BitVec.ofNat 16 l.toNat :=
  (BitVec.ofNat_toNat 16 l).symm

/-- Settles O15: the Idle case of READ. -/
theorem readArmsTheSender : Obligations.ReadArmsTheSender := by
  intro a l s hx
  rw [exec_read_of_idle hx, lenCount_eq_ofNat]

/-- Settles O16: the Idle cases of WRITE. -/
theorem writeStartsItsTransfer : Obligations.WriteStartsItsTransfer := by
  intro a l s hx
  rw [← lenCount_eq_ofNat]
  exact ⟨exec_write_of_idle hx, exec_write_zero_of_idle hx⟩

/-- Settles O22: outside Idle both words are answered by the fatal shutdown. -/
theorem secondTransferIsProtocolViolation : Obligations.SecondTransferIsProtocolViolation :=
  fun _ _ _ hx => ⟨exec_read_of_active hx, exec_write_of_active hx⟩

/-- Settles O19: STOP looks at no part of the state. -/
theorem stopEndsCommunication : Obligations.StopEndsCommunication := fun _ _ => rfl

/-! ### Payload bytes (41_transfer.md R83, R88) -/

/-- Settles O7: the two uses of a byte. -/
theorem bytesAreRoutedByTransferState : Obligations.BytesAreRoutedByTransferState :=
  fun _ _ _ hb => ⟨step_payload hb, step_decoder hb⟩

/-- Settles O17: the byte lies in the region or outside it; the laws of `Memory.write` give the reads after it is stored. -/
theorem dataIsStoredAndCounted : Obligations.DataIsStoredAndCounted := by
  intro b base expected written s hx hl hwf
  by_cases hr : payloadOffset base written + 1 ≤ s.cfg.memSize
  · exact ⟨_, execData_inRange hx hl hr, rfl, fun a ha => Memory.read_write_other s.mem ha b,
      fun _ => ⟨Memory.read_write_same hwf _ b, rfl⟩, fun hge => absurd hr (Nat.not_le.2 (Nat.lt_succ_of_le hge))⟩
  · exact ⟨_, execData_outOfRange hx hl hr, rfl, fun _ _ => rfl, fun hlt => absurd hlt hr, fun _ => ⟨rfl, rfl⟩⟩

/-- Settles O18: a payload byte is stored at the payload offset of the transfer at hand, or only reported. -/
theorem dataFrame : Obligations.DataFrame := by
  intro b s t h
  obtain ⟨base, expected, written, hx, _, ⟨_, rfl⟩ | ⟨_, rfl⟩⟩ := execData_cases h
  · refine ⟨fun a base' expected' written' hx' ha => ?_, rfl⟩
    cases hx.symm.trans hx'
    exact Memory.read_write_other s.mem ha b
  · exact ⟨fun _ _ _ _ _ _ => rfl, rfl⟩

/-! ### The frame of the other forms -/

/-- READ and WRITE, the forms that look at the transfer state. -/
def IsReadOrWrite (i : Instr) : Prop :=
  (∃ a l, i = .read a l) ∨ ∃ a l, i = .write a l

/-- Everything a form but DATA can do, with the fields it may change and what the change depends on. -/
theorem exec_cases_of_not_data {i : Instr} {s t : State} (hi : ∀ b, i ≠ .data b) (h : exec i s = .next t) :
    t = s ∨
    (IsReadOrWrite i ∧ s.xs = .idle ∧ ∃ xs, t = { s with xs := xs }) ∨
    (IsReadOrWrite i ∧ s.xs ≠ .idle ∧ ∃ hdr a l, t = protocolViolation hdr a l s) ∨
    ((∃ x, i = .stop x) ∧ t = { s with halt := .stopped, memLive := false }) := by
  cases i with
  | read a l =>
    have hw : IsReadOrWrite (.read a l) := .inl ⟨a, l, rfl⟩
    by_cases hx : s.xs = .idle
    · cases (exec_read_of_idle hx).symm.trans h
      exact .inr (.inl ⟨hw, hx, _, rfl⟩)
    · cases (exec_read_of_active hx).symm.trans h
      exact .inr (.inr (.inl ⟨hw, hx, _, _, _, rfl⟩))
  | write a l =>
    have hw : IsReadOrWrite (.write a l) := .inr ⟨a, l, rfl⟩
    by_cases hx : s.xs = .idle
    · by_cases hl : l = 0#14
      · cases (exec_write_zero_of_idle hx hl).symm.trans h
        exact .inl rfl
      · cases (exec_write_of_idle hx hl).symm.trans h
        exact .inr (.inl ⟨hw, hx, _, rfl⟩)
    · cases (exec_write_of_active hx).symm.trans h
      exact .inr (.inr (.inl ⟨hw, hx, _, _, _, rfl⟩))
  | stop x =>
    cases h
    exact .inr (.inr (.inr ⟨⟨x, rfl⟩, rfl⟩))
  | rsvd00 x =>
    cases h
    exact .inl rfl
  | fill b =>
    cases h
    exact .inl rfl
  | data b => exact absurd rfl (hi b)

/-- Settles O23: each way such a form answers changes only the fields it names. -/
theorem wordFormsFrame : Obligations.WordFormsFrame := by
  intro i s t hi h
  obtain rfl | ⟨hw, hx, xs, rfl⟩ | ⟨hw, hx, hdr, a, l, rfl⟩ | ⟨hstop, rfl⟩ := exec_cases_of_not_data hi h
  · exact ⟨fun _ => rfl, rfl, .inr rfl, .inr rfl, .inr (.inr ⟨rfl, rfl⟩)⟩
  · exact ⟨fun _ => rfl, rfl, .inl ⟨hw, hx⟩, .inr rfl, .inr (.inr ⟨rfl, rfl⟩)⟩
  · exact ⟨fun _ => rfl, rfl, .inr rfl, .inl ⟨hw, hx⟩, .inl ⟨hw, hx⟩⟩
  · exact ⟨fun _ => rfl, rfl, .inr rfl, .inr rfl, .inr (.inl hstop)⟩

/-! ### The end of communication -/

/-- A completed word ends communication only as STOP, or as READ or WRITE in an active transfer, and releases the region
(41_transfer.md R84, R89). -/
theorem WordEffect.of_halt_ne {w : Word48} {u t : State} (h : WordEffect w u t) (hh : t.halt ≠ u.halt) :
    t.memLive = false ∧
      ((t.halt = .stopped ∧ ∃ x, decodeWord w = .stop x) ∨
       (t.halt = .fatal .protocolViolation ∧ u.xs ≠ .idle ∧
          ∃ a l, decodeWord w = .read a l ∨ decodeWord w = .write a l)) := by
  cases h with
  | stop hw => exact ⟨rfl, .inl ⟨rfl, _, decodeWord_of_hdr_stop hw⟩⟩
  | readViolation hw hx => exact ⟨rfl, .inr ⟨rfl, hx, _, _, .inl (decodeWord_of_hdr_read hw)⟩⟩
  | writeViolation hw hx => exact ⟨rfl, .inr ⟨rfl, hx, _, _, .inr (decodeWord_of_hdr_write hw)⟩⟩
  | _ => exact absurd rfl hh

theorem kind_reading_of_active {xs : TransferState} (hidle : xs ≠ .idle) (hw : xs.kind ≠ .writing) :
    xs.kind = .reading := by
  cases xs with
  | idle => exact absurd rfl hidle
  | writing base expected written => exact absurd rfl hw
  | reading base length drained => rfl

/-- Settles O46: of the ways a step answers a next state only a completed word and the three transport failures change the
end. -/
theorem onlyTheseStepsEndCommunication : Obligations.OnlyTheseStepsEndCommunication := by
  intro s t h hs ht
  cases step_transition h with
  | eos rest hn _ hr => exact ⟨rfl, .inr (.inr (.inl ⟨rfl, hn, rest, .inl hr⟩))⟩
  | rxFail rest hn _ hr => exact ⟨rfl, .inr (.inr (.inl ⟨rfl, hn, rest, .inr hr⟩))⟩
  | word b rest t hb _ hx hc he =>
    have hne : t.halt ≠ (atWord rest s).halt := fun heq => ht (heq.trans hs)
    obtain ⟨hlive, ⟨hstop, x, hw⟩ | ⟨hfatal, hidle, a, l, hw⟩⟩ := he.of_halt_ne hne
    · exact ⟨hlive, .inl ⟨hstop, b, rest, x, hb, hx, hc, hw⟩⟩
    · exact ⟨hlive, .inr (.inl ⟨hfatal, b, rest, a, l, hb, kind_reading_of_active hidle hx, hc, hw⟩)⟩
  | emitFails base length k hn _ hx _ _ _ ha =>
    exact ⟨rfl, .inr (.inr (.inr ⟨rfl, hn, base, length, k, hx, ha⟩))⟩
  | _ => exact absurd hs ht

end Sys2Proof.Machine
end

section
/-! PROOFS. The sender (42_sender.md R93 to R100): what its emit and its clear step do, that nothing else writes to the
transport, and that a run fair to the sender ends every Read transfer. -/

namespace Sys2Proof.Machine

/-! ### The emit step and the clear step -/

section
variable {s : State} {base : Addr} {length : Count} (hn : nextAgent s = some .sender)
include hn

/-- R93: the sender's step on an undrained transfer is the emit step. -/
theorem step_undrained (hx : s.xs = .reading base length false) : step s = sndEmit base length (advance s) := by
  simp [step, hn, sndStep, hx]

/-- R94: on a drained one it is the clear step. -/
theorem step_drained (hx : s.xs = .reading base length true) : step s = sndClear (advance s) := by
  simp [step, hn, sndStep, hx]

/-- R93: an empty reply makes no write, so it only drains the transfer. -/
theorem step_emits_empty (hx : s.xs = .reading base length false) (hl : s.memLive = true)
    (hr : baseOffset base + length.toNat ≤ s.cfg.memSize) (h0 : length = 0) :
    step s = .next { advance s with xs := .reading base length true } := by
  rw [step_undrained hn hx, sndEmit, memRead_inRange (s := advance s) hl hr, h0]
  rfl

end

/-- Settles O37: the drained transfer is the clear step's. -/
theorem clearEndsTheReadTransfer : Obligations.ClearEndsTheReadTransfer :=
  fun _ _ _ hn hx => step_drained hn hx

/-- Settles O35: the read of the span is all or nothing, so it leaves the report and an empty reply. -/
theorem outOfRangeReadSendsNothing : Obligations.OutOfRangeReadSendsNothing := by
  intro s base length hn hx hl hr
  have hout : ¬ baseOffset base + length.toNat ≤ s.cfg.memSize := Nat.not_le.2 hr
  rw [step_undrained hn hx, sndEmit, memRead_outOfRange (s := advance s) hl hout]
  rfl

/-- Settles O34: an empty span needs no answer, any other one is written whole; byte `i` of the reply is byte `i` of the
span. -/
theorem emitSendsTheSpan : Obligations.EmitSendsTheSpan := by
  intro s base length hn hx hl hr ha
  by_cases h0 : length = 0
  · refine ⟨_, [], step_emits_empty hn hx hl hr h0, ?_, ?_, ?_, (if_pos h0).symm⟩
    · simp [h0]
    · simp [h0]
    · rw [List.append_nil]
      rfl
  · have h0' : length.toNat ≠ 0 := fun h => h0 (BitVec.eq_of_toNat_eq h)
    refine ⟨_, spanBytes s.mem base.toNat length.toNat, step_emits hn hx hl hr (ha.resolve_left h0),
      spanBytes_length .., fun i hi => ?_, rfl, ?_⟩
    · simp [spanBytes, byteAt, hi]
    · rw [if_neg h0]
      exact if_neg h0'

/-- Settles O40: only an emit in range changes the output; an accepted write appends the whole span, a refused one its first
`k` bytes. -/
theorem onlyTheSenderSendsAndOnlyReplies : Obligations.OnlyTheSenderSendsAndOnlyReplies := by
  intro s t h
  cases step_transition h with
  | emits base length hn _ hx _ hr => exact .inr ⟨hn, base, length, _, hx, le_rfl, hr, rfl⟩
  | emitFails base length k hn _ hx _ hr =>
    refine .inr ⟨hn, base, length, min k length.toNat, hx, Nat.min_le_right .., hr, ?_⟩
    simp only [spanBytes, ← List.map_take, List.take_range]
    rfl
  | word _ _ _ _ _ _ _ he => exact .inl (congrArg State.tx he.frame :)
  | _ => exact .inl rfl

/-! ### A Read transfer through one move -/

/-- A completed word never changes the transfer state while a transfer is active (41_transfer.md R84). -/
theorem WordEffect.xs_of_active {w : Word48} {u t : State} (h : WordEffect w u t) (hx : u.xs ≠ .idle) : t.xs = u.xs := by
  cases h with
  | read _ hidle => exact absurd hidle hx
  | write _ hidle => exact absurd hidle hx
  | _ => rfl

section
variable {s t : State} {base : Addr} {length : Count} {drained : Bool} (hx : s.xs = .reading base length drained)
include hx

/-- R95: only the sender changes the state of a Read transfer. -/
theorem step_xs_of_reading (h : step s = .next t) (hn : nextAgent s ≠ some .sender) : t.xs = s.xs := by
  have hidle : s.xs ≠ .idle := by simp [hx]
  cases step_transition h with
  | word _ _ _ _ _ _ _ he => exact he.xs_of_active hidle
  | stores _ _ _ _ _ _ _ hw => cases hx.symm.trans hw
  | discards _ _ _ _ _ _ _ hw => cases hx.symm.trans hw
  | emitsNothing _ _ hs => exact absurd hs hn
  | emitsOutOfRange _ _ hs => exact absurd hs hn
  | emits _ _ hs => exact absurd hs hn
  | clears _ _ hs => exact absurd hs hn
  | _ => rfl

theorem makeMove_xs_of_reading {m : Move} (h : makeMove m s = .next t)
    (hn : ¬ (m = .block ∧ nextAgent s = some .sender)) : t.xs = s.xs := by
  obtain ⟨hm, hs⟩ | ⟨_, _, _, _, rfl, _⟩ := makeMove_cases h
  · exact step_xs_of_reading hx hs fun hs' => hn ⟨hm, hs'⟩
  · rfl

end

/-- R93: whatever the host answers, the emit step drains the transfer or ends communication. -/
theorem step_drains_or_halts {s t : State} {base : Addr} {length : Count} (hn : nextAgent s = some .sender)
    (hx : s.xs = .reading base length false) (h : step s = .next t) :
    t.xs = .reading base length true ∨ t.halt ≠ .none := by
  rw [step_undrained hn hx] at h
  obtain ⟨_, ⟨_, _, rfl⟩ | ⟨_, rfl⟩ | ⟨_, _, rfl⟩⟩ := sndEmit_cases h
  · exact .inl rfl
  · exact .inl rfl
  · obtain ⟨_, he⟩ | ⟨_, _, he⟩ := emitReply_cases base length _ (advance s) <;> rw [he]
    · exact .inl rfl
    · exact .inr (fun hh => nomatch hh)

/-! ### Runs that are fair to the sender -/

/-- The Read transfer of `length` bytes from `base` lasts from the point `n` until the engine is Idle or communication has
ended. -/
def ReadEndsFrom (r : Nat → State) (base : Addr) (length : Count) (n : Nat) : Prop :=
  ∃ m, n ≤ m ∧ ((r m).xs = .idle ∨ (r m).halt ≠ .none) ∧ ∀ k, n ≤ k → k < m → ∃ d, (r k).xs = .reading base length d

section
variable {r : Nat → State} {moves : Nat → Move} {base : Addr} {length : Count} {drained : Bool} {n : Nat}

theorem ReadEndsFrom.here (h : (r n).xs = .idle ∨ (r n).halt ≠ .none) : ReadEndsFrom r base length n :=
  ⟨n, le_rfl, h, fun _ hle hlt => absurd hlt (Nat.not_lt.2 hle)⟩

theorem ReadEndsFrom.of_later {m : Nat} (h : ReadEndsFrom r base length m) (hnm : n ≤ m)
    (hread : ∀ k, n ≤ k → k < m → ∃ d, (r k).xs = .reading base length d) : ReadEndsFrom r base length n := by
  obtain ⟨e, hme, hend, huntil⟩ := h
  refine ⟨e, hnm.trans hme, hend, fun k hnk hke => ?_⟩
  obtain hkm | hmk := Nat.lt_or_ge k m
  · exact hread k hnk hkm
  · exact huntil k hmk hke

/-- R95: as long as the sender takes no step a Read transfer stays as it is. -/
theorem IsRun.xs_of_no_sender (hr : IsRun r moves) (hx : (r n).xs = .reading base length drained) {m : Nat} (hle : n ≤ m)
    (hnone : ∀ k, n ≤ k → k < m → ¬ StepTaken .sender r moves k) : (r m).xs = .reading base length drained := by
  induction m, hle using Nat.le_induction with
  | base => exact hx
  | succ m hle ih =>
    have hm := ih fun k hk hlt => hnone k hk (Nat.lt_succ_of_lt hlt)
    exact (makeMove_xs_of_reading hm (hr m) (hnone m hle (Nat.lt_succ_self m))).trans hm

/-- R100: in a Read transfer a run fair to the sender takes a step of the sender, unless communication ends: without such a
step the transfer stays, and keeps the sender enabled. -/
theorem IsRun.halts_or_steps_sender (hr : IsRun r moves) (hfair : FairSnd r moves)
    (hx : (r n).xs = .reading base length drained) :
    ∃ m, n ≤ m ∧ ((r m).halt ≠ .none ∨ StepTaken .sender r moves m) := by
  by_contra! hno
  obtain ⟨m, hle, hm⟩ := hfair n fun m hle =>
    (sndEnabled_iff (r m)).2 ⟨(hno m hle).1, base, length, drained, hr.xs_of_no_sender hx hle fun k hk _ => (hno k hk).2⟩
  exact (hno m hle).2 hm

/-- A Read transfer ends if it ends after every step of the sender that meets it as it is: the first such step, or the end of
communication before it, is reached. -/
theorem IsRun.readEndsFrom_of_sender (hr : IsRun r moves) (hfair : FairSnd r moves)
    (hx : (r n).xs = .reading base length drained)
    (hnext : ∀ m, nextAgent (r m) = some .sender → (r m).xs = .reading base length drained →
      step (r m) = .next (r (m + 1)) → ReadEndsFrom r base length (m + 1)) : ReadEndsFrom r base length n := by
  classical
  have hex := hr.halts_or_steps_sender hfair hx
  obtain ⟨hle, hfirst⟩ := Nat.find_spec hex
  have hread : ∀ k, n ≤ k → k ≤ Nat.find hex → (r k).xs = .reading base length drained := fun k hk hkm =>
    hr.xs_of_no_sender hx hk fun j hj hjk hstep => Nat.find_min hex (hjk.trans_le hkm) ⟨hj, .inr hstep⟩
  obtain hhalt | ⟨hblock, hn⟩ := hfirst
  · exact (ReadEndsFrom.here (.inr hhalt)).of_later hle fun k hk hlt => ⟨drained, hread k hk hlt.le⟩
  · have hstep := hr (Nat.find hex)
    rw [hblock, makeMove_block] at hstep
    exact (hnext _ hn (hread _ hle le_rfl) hstep).of_later (Nat.le_succ_of_le hle)
      fun k hk hlt => ⟨drained, hread k hk (Nat.le_of_lt_succ hlt)⟩

/-- R94: a drained transfer ends with the sender's next step, which clears it. -/
theorem IsRun.readEndsFrom_of_drained (hr : IsRun r moves) (hfair : FairSnd r moves)
    (hx : (r n).xs = .reading base length true) : ReadEndsFrom r base length n :=
  hr.readEndsFrom_of_sender hfair hx fun m hn hm hstep => by
    rw [step_drained hn hm] at hstep
    exact .here (.inl (congrArg State.xs (Host.Outcome.next.inj hstep)).symm)

/-- R93: an undrained transfer is drained by the sender's next step, unless the host's answer ends communication. -/
theorem IsRun.readEndsFrom_of_undrained (hr : IsRun r moves) (hfair : FairSnd r moves)
    (hx : (r n).xs = .reading base length false) : ReadEndsFrom r base length n :=
  hr.readEndsFrom_of_sender hfair hx fun _ hn hm hstep => by
    obtain hdrained | hhalt := step_drains_or_halts hn hm hstep
    · exact hr.readEndsFrom_of_drained hfair hdrained
    · exact .here (.inr hhalt)

end

/-- Settles O58: the sender has at most two steps left in the transfer, the emit and the clear, and fairness brings each. -/
theorem fairSenderEndsEveryRead : Obligations.FairSenderEndsEveryRead := by
  intro r moves n base length drained hr hfair hx
  cases drained with
  | true => exact hr.readEndsFrom_of_drained hfair hx
  | false => exact hr.readEndsFrom_of_undrained hfair hx

end Sys2Proof.Machine
end

section
/-! PROOFS. Errors and the end of communication (60_exceptions.md R101 to R118): what a step reports and how that relates to the
end, the two conditions an agent meets at its port, the recovery from an access out of range, the end status. -/

namespace Sys2Proof.Machine

/-! ### Transport failures (60_exceptions.md R106 to R108) -/

/-- Settles O41: `IN` gives a Fail item to the fatal shutdown before it looks at the transfer state or the accumulator. -/
theorem inputFailureIsFatal : Obligations.InputFailureIsFatal :=
  fun _ _ hn hr => step_inbound hn hr

/-- Settles O42: an Eos item goes the same way, with direction RxEos (the decision D16; log 20). -/
theorem endOfStreamIsFatal : Obligations.EndOfStreamIsFatal :=
  fun _ _ hn hr => step_inbound hn hr

theorem spanBytes_take (m : Memory) (off n k : Nat) : (spanBytes m off n).take k = spanBytes m off (min k n) := by
  simp only [spanBytes, ← List.map_take, List.take_range]

section
variable {s : State} {base : Addr} {length : Count} (hl : s.memLive = true)
include hl

/-- A non-empty span in range is written to the transport (42_sender.md R93). -/
theorem sndEmit_writes (hr : baseOffset base + length.toNat ≤ s.cfg.memSize) (h0 : length ≠ 0) :
    sndEmit base length s = .next (emitReply base length (spanBytes s.mem (baseOffset base) length.toNat) s) := by
  obtain ⟨t, ht⟩ := sndEmit_next base length hl
  obtain ⟨_, ⟨_, hempty, _⟩ | ⟨hout, _⟩ | ⟨_, _, rfl⟩⟩ := sndEmit_cases ht
  · exact absurd (BitVec.eq_of_toNat_eq hempty) h0
  · exact absurd hr hout
  · exact ht

/-- A span out of range is reported, and its reply is empty (42_sender.md R93, R97). -/
theorem sndEmit_outOfRange (hr : ¬ baseOffset base + length.toNat ≤ s.cfg.memSize) :
    sndEmit base length s =
      .next { reportOutOfRange .read (baseOffset base) length.toNat s with xs := .reading base length true } := by
  rw [sndEmit, memRead_outOfRange hl hr]

end

/-- A refused write leaves the bytes that got through on the output, and then is a TransportFailure (60_exceptions.md R108). -/
theorem emitReply_of_fail {s : State} {k : Nat} (ha : txAnswer s = .fail k) (base : Addr) (length : Count)
    (seq : List Byte) :
    emitReply base length seq s = transportFailure .txFail (txAppend (seq.take k) (dropTxAnswer s)) := by
  rw [emitReply, ha]

/-- The emit step of a non-empty span in range whose write the host refuses. -/
theorem step_emitFails {s : State} {base : Addr} {length : Count} {k : Nat} (hn : nextAgent s = some .sender)
    (hx : s.xs = .reading base length false) (hl : s.memLive = true)
    (hr : baseOffset base + length.toNat ≤ s.cfg.memSize) (h0 : length ≠ 0) (ha : txAnswer (advance s) = .fail k) :
    step s = .next (transportFailure .txFail
      (txAppend (spanBytes s.mem (baseOffset base) (min k length.toNat)) (dropTxAnswer (advance s)))) := by
  rw [step_undrained hn hx, sndEmit_writes (s := advance s) hl hr h0, emitReply_of_fail ha, spanBytes_take, advance_mem]

/-- Settles O36: the span is read whole and its write refused; what got through is the span's first `k` bytes. -/
theorem failedReplyIsTransportFailure : Obligations.FailedReplyIsTransportFailure := by
  intro s base length k hn hx hl hr h0 ha
  exact ⟨_, step_emitFails hn hx hl hr h0 ha, rfl, rfl, rfl, rfl, rfl, rfl, rfl, rfl, rfl, rfl⟩

/-! ### Recovery from an access out of range (60_exceptions.md R103) -/

/-- Settles O43: the report only appends its record; the payload byte and the reply go on as their rules say. -/
theorem outOfRangeIsRecoveredLocally : Obligations.OutOfRangeIsRecoveredLocally := by
  refine ⟨fun _ _ _ _ => rfl, fun b base expected written s hx hl hout => ?_, fun base length s hx hl hout => ?_⟩
  · exact execData_outOfRange hx hl (Nat.not_le.2 (Nat.lt_succ_of_le hout))
  · have hemit : sndStep s = sndEmit base length s := by rw [sndStep, hx]
    exact ⟨_, hemit.trans (sndEmit_outOfRange hl (Nat.not_le.2 hout)), rfl, rfl⟩

/-! ### What a step reports (60_exceptions.md R102, R104, R111) -/

/-- How the reports and the end go on together from `diag` and `halt`: no report and no new fatal end, a report of OutOfRange and
the same end, or the report of a fatal condition that ends active communication. -/
inductive ReportsNext (diag : List Diag) (halt : Halt) : List Diag → Halt → Prop where
  | nothing {halt' : Halt} (hk : halt'.fatalCause = halt.fatalCause) : ReportsNext diag halt diag halt'
  | recovered (op : AccessOp) (off n : Nat) : ReportsNext diag halt (diag ++ [.outOfRange op off n]) halt
  | fatal (k : Cause) (info : FatalInfo) (hh : halt = .none) :
      ReportsNext diag halt (diag ++ [.fatalReport k info]) (.fatal k)

section
variable {diag diag' : List Diag} {halt halt' : Halt} (h : ReportsNext diag halt diag' halt')
include h

theorem ReportsNext.at_most_one : diag' = diag ∨ ∃ d, diag' = diag ++ [d] := by
  cases h with
  | nothing => exact .inl rfl
  | recovered => exact .inr ⟨_, rfl⟩
  | fatal => exact .inr ⟨_, rfl⟩

/-- Active communication ends with the cause `k` exactly where a fatal report of `k` is appended. -/
theorem ReportsNext.ends_iff_fatalReport (k : Cause) :
    (halt = .none ∧ halt' = .fatal k) ↔ ∃ info, diag' = diag ++ [.fatalReport k info] := by
  cases h with
  | nothing hk =>
    refine iff_of_false ?_ (by simp)
    rintro ⟨rfl, rfl⟩
    cases hk
  | recovered =>
    refine iff_of_false ?_ (by simp)
    rintro ⟨hactive, hfatal⟩
    cases hactive.symm.trans hfatal
  | fatal k' info hh => simp [hh]

end

/-- Of the completed words only READ and WRITE in an active transfer report (41_transfer.md R84). -/
theorem WordEffect.reports {w : Word48} {u t : State} (h : WordEffect w u t) (hh : u.halt = .none) :
    ReportsNext u.diag u.halt t.diag t.halt := by
  cases h with
  | readViolation => exact .fatal _ _ hh
  | writeViolation => exact .fatal _ _ hh
  | stop => exact .nothing (by rw [hh]; rfl)
  | read => exact .nothing rfl
  | write => exact .nothing rfl
  | writeNothing => exact .nothing rfl
  | rsvd00 => exact .nothing rfl

/-- Every step reports in one of these ways. -/
theorem step_reports {s t : State} (h : step s = .next t) : ReportsNext s.diag s.halt t.diag t.halt := by
  cases step_transition h with
  | eos _ _ hh => exact .fatal _ _ hh
  | rxFail _ _ hh => exact .fatal _ _ hh
  | emitFails _ _ _ _ hh => exact .fatal _ _ hh
  | word _ _ _ _ hh _ _ he => exact he.reports hh
  | discards => exact .recovered _ _ _
  | emitsOutOfRange => exact .recovered _ _ _
  | _ => exact .nothing rfl

/-- Settles O44: each way a step reports appends at most one record, and ends communication with the cause it reports. -/
theorem atMostOneReportPerStep : Obligations.AtMostOneReportPerStep :=
  fun _ _ h => ⟨(step_reports h).at_most_one, (step_reports h).ends_iff_fatalReport⟩

/-! ### The end status, and a launch that fails (60_exceptions.md R105, R109) -/

theorem commActive_iff (s : State) : commActive s = true ↔ s.halt = .none :=
  decide_eq_true_iff

section
variable {s : State}

theorem exitStatus_of_stopped (h : s.halt = .stopped) : exitStatus s = some s.cfg.exitStop := by
  rw [exitStatus, h]

theorem exitStatus_of_fatal {k : Cause} (h : s.halt = .fatal k) : exitStatus s = some s.cfg.exitFatal := by
  rw [exitStatus, h]

end

/-- There is no end status exactly while communication is active. -/
theorem exitStatus_eq_none_iff (s : State) : exitStatus s = none ↔ s.halt = .none := by
  cases h : s.halt with
  | none => simp [exitStatus, h]
  | stopped => simp [exitStatus_of_stopped h]
  | fatal k => simp [exitStatus_of_fatal h]

/-- Settles O48: the end status is read off the end; that EXIT_FATAL is not 0 is among the ranges of the parameters. -/
theorem endStatusFollowsTheEnd : Obligations.EndStatusFollowsTheEnd := by
  intro s hinv
  obtain ⟨_, _, _, hnonzero⟩ := (paramsOk_iff s.cfg).1 hinv.params_ok
  exact ⟨(commActive_iff s).trans (exitStatus_eq_none_iff s).symm, exitStatus_of_stopped,
    fun _ hk => ⟨exitStatus_of_fatal hk, hnonzero⟩⟩

/-- Settles O49: every field is read off the launch; in its fatal state no agent moves. -/
theorem failedAllocationIsFatalAtLaunch : Obligations.FailedAllocationIsFatalAtLaunch := by
  intro p hp
  have hfatal : (State.launch p).halt = .fatal .allocationFailure := by simp [State.launch, hp]
  have hended : (State.launch p).halt ≠ .none := by simp [hfatal]
  obtain ⟨_, _, _, hwaits⟩ := endedCommunicationIsTerminal (State.launch p) hended
  exact ⟨hfatal, hp, by simp [State.launch, hp], by simp [State.launch, hp], rfl, hwaits⟩

end Sys2Proof.Machine
end

section
/-! PROOFS. The hazard after a reply and the two grounds of progress (70_reset_and_hazards.md R122, R129). -/

namespace Sys2Proof.Machine

/-! ### A READ or WRITE word around the sender's clear (R122) -/

section
variable {i : Instr} (hi : IsReadOrWrite i) {s : State}
include hi

/-- R84: while a transfer is active both words end in the fatal shutdown. -/
theorem exec_readOrWrite_of_active (hx : s.xs ≠ .idle) :
    ∃ t, exec i s = .next t ∧ t.halt = .fatal .protocolViolation ∧ t.memLive = false := by
  obtain ⟨a, l, rfl⟩ | ⟨a, l, rfl⟩ := hi
  · exact ⟨_, exec_read_of_active hx, rfl, rfl⟩
  · exact ⟨_, exec_write_of_active hx, rfl, rfl⟩

/-- R85, R86, R87: from Idle neither word ends communication. -/
theorem exec_readOrWrite_of_idle (hx : s.xs = .idle) : ∃ t, exec i s = .next t ∧ t.halt = s.halt := by
  obtain ⟨a, l, rfl⟩ | ⟨a, l, rfl⟩ := hi
  · exact ⟨_, exec_read_of_idle hx, rfl⟩
  · by_cases hl : l = 0#14
    · exact ⟨_, exec_write_zero_of_idle hx hl, rfl⟩
    · exact ⟨_, exec_write_of_idle hx hl, rfl⟩

end

/-- The sender has no step outside a Read transfer (42_sender.md R95). -/
theorem sndEnabled_eq_false {s : State} (hx : s.xs.kind ≠ .reading) : sndEnabled s = false := by
  simp [sndEnabled, hx]

/-- Outside a Read transfer every item on RX is `IN`'s to take. -/
theorem nextAgent_of_not_reading {s : State} {item : RxItem} {rest : List RxItem} (hh : s.halt = .none)
    (hr : s.rx = item :: rest) (hx : s.xs.kind ≠ .reading) : nextAgent s = some .inbound := by
  rw [nextAgent, (inEnabled_iff s).2 ⟨hh, item, rest, hr⟩, sndEnabled_eq_false hx]

/-- Settles O57: taken first, the sixth byte runs the word in the Read transfer; after the clear the same byte runs it from
Idle. -/
theorem readHazardDependsOnTheOrder : Obligations.ReadHazardDependsOnTheOrder := by
  rintro s base length b rest sched _ hh hx hc hr rfl hi
  constructor
  · have hn : nextAgent { s with sched := .inbound :: sched } = some .inbound := nextAgent_of_sched hh hr rfl
    have hword := step_word ⟨hn, hr⟩ (by simp [hx, TransferState.kind]) hc
    rw [steps_one, hword]
    exact exec_readOrWrite_of_active hi (by simp [atWord, taken, hx])
  · have hn : nextAgent { s with sched := .sender :: sched } = some .sender := nextAgent_sender_of_sched hh hx rfl
    have hclear := clearEndsTheReadTransfer _ _ _ hn hx
    have hword := step_word ⟨nextAgent_of_not_reading (s := { s with xs := .idle, sched := sched, draws := s.draws + 1 })
      hh hr (by simp [TransferState.kind]), hr⟩ (by simp [TransferState.kind]) hc
    obtain ⟨t, ht, hhalt⟩ := exec_readOrWrite_of_idle hi
      (s := atWord rest { s with xs := .idle, sched := sched, draws := s.draws + 1 }) rfl
    exact ⟨t, (steps_succ hclear).trans ((steps_one _).trans (hword.trans ht)), hhalt.trans hh, ht⟩

/-! ### Without input nothing moves (R129; 60_exceptions.md R118) -/

/-- Outside a Read transfer and without input the block waits. -/
theorem nextAgent_eq_none_of_no_input {s : State} (hrx : s.rx = []) (hx : s.xs.kind ≠ .reading) : nextAgent s = none :=
  (nextAgent_eq_none_iff s).2 ⟨by simp [inEnabled, hrx], sndEnabled_eq_false hx⟩

/-- There any move but an offer changes the environment's choices and answers alone. -/
theorem makeMove_of_no_input {m : Move} {s t : State} (h : makeMove m s = .next t) (hrx : s.rx = [])
    (hx : s.xs.kind ≠ .reading) (hm : ∀ item, m ≠ .offer item) :
    { t with sched := s.sched, txAnswers := s.txAnswers } = s := by
  obtain ⟨_, hs⟩ | ⟨_, appended, _, _, rfl, happended⟩ := makeMove_cases h
  · cases (step_of_nextAgent_none (nextAgent_eq_none_of_no_input hrx hx)).symm.trans hs
    rfl
  · simp [happended hm]

/-- So the block keeps every field of its own until the host offers an item. -/
theorem IsRun.waits_for_input {r : Nat → State} {moves : Nat → Move} (hr : IsRun r moves) {n m : Nat}
    (hrx : (r n).rx = []) (hx : (r n).xs.kind ≠ .reading) (hle : n ≤ m)
    (hnone : ∀ k item, n ≤ k → k < m → moves k ≠ .offer item) :
    { r m with sched := (r n).sched, txAnswers := (r n).txAnswers } = r n := by
  induction m, hle using Nat.le_induction with
  | base => rfl
  | succ m hle ih =>
    have hm := ih fun k item hk hlt => hnone k item hk (Nat.lt_succ_of_lt hlt)
    have hrxm : (r m).rx = [] := (congrArg State.rx hm :).trans hrx
    have hxm : (r m).xs.kind ≠ .reading := (congrArg State.xs hm :) ▸ hx
    have hmove := makeMove_of_no_input (hr m) hrxm hxm fun item => hnone m item hle (Nat.lt_succ_self m)
    calc { r (m + 1) with sched := (r n).sched, txAnswers := (r n).txAnswers }
      _ = { r m with sched := (r n).sched, txAnswers := (r n).txAnswers } :=
        congrArg (fun t : State => { t with sched := (r n).sched, txAnswers := (r n).txAnswers }) hmove
      _ = r n := hm

/-! ### Without fairness the sender starves (R129; 42_sender.md R100)

The host chooses `IN` and offers a filler byte, and the block takes it, over and over. -/

/-- An active Read transfer at a word boundary, with nothing on RX and no choice made. -/
structure StarvesNext (s : State) : Prop where
  active : s.halt = .none
  reading : s.xs.kind = .reading
  boundary : s.cnt = 0
  no_input : s.rx = []
  no_choice : s.sched = []

/-- The state a round of starving leaves: a choice has been used and that is all. -/
def afterRound (s : State) : State := { s with draws := s.draws + 1 }

/-- The moves, three to a round. -/
def starvingMoves : Nat → Move
  | 0 => .schedule .inbound
  | 1 => .offer (.byte 0x00)
  | 2 => .block
  | n + 3 => starvingMoves n

/-- The states those moves lead through. -/
def starvingRun (s : State) : Nat → State
  | 0 => s
  | 1 => hostSchedule .inbound s
  | 2 => hostOffer (.byte 0x00) (hostSchedule .inbound s)
  | n + 3 => starvingRun (afterRound s) n

/-- No move of the run touches the transfer, the end of communication or the output. -/
theorem starvingRun_frame (s : State) (n : Nat) :
    (starvingRun s n).xs = s.xs ∧ (starvingRun s n).halt = s.halt ∧ (starvingRun s n).tx = s.tx := by
  induction s, n using starvingRun.induct with
  | case1 => exact ⟨rfl, rfl, rfl⟩
  | case2 => exact ⟨rfl, rfl, rfl⟩
  | case3 => exact ⟨rfl, rfl, rfl⟩
  | case4 s n ih => exact ih

theorem starvingMoves_offer (k : Nat) : starvingMoves (3 * k + 1) = .offer (.byte 0x00) := by
  induction k with
  | zero => rfl
  | succ k ih => exact ih

theorem starvingMoves_block (k : Nat) : starvingMoves (3 * k + 2) = .block := by
  induction k with
  | zero => rfl
  | succ k ih => exact ih

namespace StarvesNext
variable {s : State} (h : StarvesNext s)
include h

theorem next_round : StarvesNext (afterRound s) :=
  ⟨h.active, h.reading, h.boundary, h.no_input, h.no_choice⟩

/-- The choice made and the byte offered, `IN` has the next step, on that byte. -/
theorem byteIsNext : ByteIsNext 0x00 [] (starvingRun s 2) := by
  have hrx : (starvingRun s 2).rx = [.byte 0x00] := by simp [starvingRun, h.no_input]
  have hsched : (starvingRun s 2).sched = [.inbound] := by simp [starvingRun, h.no_choice]
  exact ⟨nextAgent_of_sched h.active hrx hsched, hrx⟩

/-- It is filler at a word boundary, so only the choice has gone (40_decoder.md R73). -/
theorem takes_filler : step (starvingRun s 2) = .next (afterRound s) := by
  rw [step_filler h.byteIsNext (by simp [starvingRun, h.reading]) h.boundary (by decide)]
  simp [taken, starvingRun, hostOffer, hostSchedule, afterRound, h.no_input, h.no_choice]

theorem isRun : IsRun (starvingRun s) starvingMoves := by
  intro n
  induction n using starvingMoves.induct generalizing s with
  | case1 => rfl
  | case2 => rfl
  | case3 => exact h.takes_filler
  | case4 n ih => exact ih h.next_round

/-- Every step of the block in the run is one of `IN`. -/
theorem nextAgent_of_block {n : Nat} (hn : starvingMoves n = .block) : nextAgent (starvingRun s n) = some .inbound := by
  induction n using starvingMoves.induct generalizing s with
  | case1 => cases hn
  | case2 => cases hn
  | case3 => exact h.byteIsNext.1
  | case4 n ih => exact ih h.next_round hn

theorem inbound_steps_for_ever (n : Nat) : ∃ m, n ≤ m ∧ StepTaken .inbound (starvingRun s) starvingMoves m :=
  ⟨3 * n + 2, by omega, starvingMoves_block n, h.nextAgent_of_block (starvingMoves_block n)⟩

/-- The Read transfer keeps the sender enabled, and it never moves. -/
theorem not_fairSnd : ¬ FairSnd (starvingRun s) starvingMoves := by
  intro hfair
  obtain ⟨m, _, hblock, hn⟩ := hfair 0 fun m _ => by
    obtain ⟨hxs, hhalt, _⟩ := starvingRun_frame s m
    simp [sndEnabled, hxs, hhalt, h.active, h.reading]
  cases (h.nextAgent_of_block hblock).symm.trans hn

end StarvesNext

/-- Settles O60: without input neither agent has a step, and the starving run is fair to `IN` alone. -/
theorem progressRestsOnInputAndFairness : Obligations.ProgressRestsOnInputAndFairness := by
  refine ⟨fun _ _ _ _ hr hrx hx hle hnone => hr.waits_for_input hrx hx hle hnone, fun s hh hx hc hrx hs => ?_⟩
  have h : StarvesNext s := ⟨hh, hx, hc, hrx, hs⟩
  refine ⟨starvingRun s, starvingMoves, rfl, h.isRun, fun n _ => h.inbound_steps_for_ever n, h.not_fairSnd,
    fun n => ⟨3 * n + 1, by omega, _, starvingMoves_offer n⟩, h.inbound_steps_for_ever, fun n => ?_⟩
  obtain ⟨hxs, hhalt, htx⟩ := starvingRun_frame s n
  exact ⟨hxs, hhalt.trans hh, htx⟩

end Sys2Proof.Machine
end
